-- ==== Sys2Proof/Word.lean ====
section
/-! DEFINITION. The bit widths of AKC's words (00_scope.md R9, R10; 30_encoding.md R90, R103). Everything is an
unsigned bit vector: AKC has no signed quantity (00_scope.md R12). -/

namespace Sys2Proof

/-- A byte of a buffer, or one ASCII character of a string (00_scope.md R15, R19). -/
abbrev Byte := BitVec 8

/-- A field operand of an encode or format request: `FW` = 32 bits (R10, R96). -/
abbrev Operand := BitVec 32

/-- A request word: `REQ_W` = 164 bits (R10, R90). -/
abbrev ReqWord := BitVec 164

/-- A response word: `RESP_W` = 276 bits, status above payload (R10, R103). -/
abbrev RespWord := BitVec 276

/-- The payload `Q` of a response word (R103). -/
abbrev RespPayload := BitVec 272

/-- A name identifier: `NAME_W` = 16 bits, the position of an entry in its table (R10, R42). -/
abbrev NameId := BitVec 16

/-- A byte sequence, offset 0 first (R15); also a string of ASCII characters, first character first (R19). -/
abbrev Buffer := List Byte

end Sys2Proof
end

