-- ==== Sys2Proof/Syntax.lean ====
section
/-! DEFINITION. The ten operations of AKC with their operands (30_encoding.md R91, R94, R95, R97, R100). -/

namespace Sys2Proof

/-- The operands of a QSRC payload, in its field order (R94). -/
structure SrcOperands where
  type : Operand
  dimension : Operand
  id : Operand
  advertiser : Operand
  publisher : Operand
  deriving DecidableEq, Repr

/-- The operands of a QTRG payload, in its field order (R95). -/
structure TrgOperands where
  type : Operand
  id : Operand
  size : Operand
  category : Operand
  option : Operand
  deriving DecidableEq, Repr

/-- The operands of a QBUF payload (R97): the stated length and the 16 byte lanes, lane 0 in the most significant
byte of `lanes`. The 24 ignored bits are no operand. A length above 255 cannot be stated (R99, U8;
notes/assumptions/9.md). -/
structure BufOperands where
  len : Byte
  lanes : BitVec 128
  deriving DecidableEq, Repr

/-- The ten operations (R91). -/
inductive Instr where
  /-- Pack a source record (40_source_codec.md R131). -/
  | encsrc (f : SrcOperands)
  /-- Unpack a source record (R138). -/
  | decsrc (b : BufOperands)
  /-- Pack a trigger record (41_trigger_codec.md R151). -/
  | enctrg (f : TrgOperands)
  /-- Unpack a trigger record (R158). -/
  | dectrg (b : BufOperands)
  /-- Print 8 bytes as 16 hexadecimal digits (42_keypiece_format.md R172). -/
  | hex64 (b : BufOperands)
  /-- Pack and print a source key piece (R176). -/
  | fmtsrc (f : SrcOperands)
  /-- Pack and print a trigger key piece (R180). -/
  | fmttrg (f : TrgOperands)
  /-- Split and unpack a bucket and look its names up (43_bucket_decode.md R191). -/
  | decbkt (b : BufOperands)
  /-- Forward lookup, name to code (44_enum_lookup.md R215). -/
  | enumfwd (table : BitVec 3) (nameId : NameId)
  /-- Reverse lookup, code to name (R216). -/
  | enumrev (table : BitVec 3) (code : Operand)
  deriving DecidableEq, Repr

/-- The operation an instruction asks for, without its operands. -/
inductive Opcode where
  | encsrc | decsrc | enctrg | dectrg | hex64 | fmtsrc | fmttrg | decbkt | enumfwd | enumrev
  deriving DecidableEq, Repr

def Instr.opcode : Instr → Opcode
  | .encsrc _ => .encsrc
  | .decsrc _ => .decsrc
  | .enctrg _ => .enctrg
  | .dectrg _ => .dectrg
  | .hex64 _ => .hex64
  | .fmtsrc _ => .fmtsrc
  | .fmttrg _ => .fmttrg
  | .decbkt _ => .decbkt
  | .enumfwd _ _ => .enumfwd
  | .enumrev _ _ => .enumrev

end Sys2Proof
end

