-- ==== Sys2Proof/WellFormed.lean ====
section
/-! DEFINITION. Which instruction terms a request word can carry without being IllegalOp (30_encoding.md R101). -/

namespace Sys2Proof

/-- A table selector that names a table: 0 to 4; 5, 6 and 7 are reserved (R101). -/
def tableInRange (table : BitVec 3) : Bool := decide (table.toNat ≤ 4)

/-- The one check: a lookup names one of the five tables. Every operand of the other eight operations is accepted
(R96: field operands are not checked; R97: any length may be stated). -/
def Instr.wf : Instr → Bool
  | .encsrc _ => true
  | .decsrc _ => true
  | .enctrg _ => true
  | .dectrg _ => true
  | .hex64 _ => true
  | .fmtsrc _ => true
  | .fmttrg _ => true
  | .decbkt _ => true
  | .enumfwd table _ => tableInRange table
  | .enumrev table _ => tableInRange table

end Sys2Proof
end

