-- ==== Sys2Proof/Decode.lean ====
section
/-! DEFINITION. Decoding and encoding of request words (30_encoding.md section 1 and R115). -/

namespace Sys2Proof

/-- The operation code of an operation (R91). -/
def Opcode.code : Opcode → BitVec 4
  | .encsrc => 0x1#4
  | .decsrc => 0x2#4
  | .enctrg => 0x3#4
  | .dectrg => 0x4#4
  | .hex64 => 0x5#4
  | .fmtsrc => 0x6#4
  | .fmttrg => 0x7#4
  | .decbkt => 0x8#4
  | .enumfwd => 0x9#4
  | .enumrev => 0xA#4

/-- The operation with a given code; none for the reserved codes 0x0 and 0xB to 0xF (R93). -/
def Opcode.ofCode (op : BitVec 4) : Option Opcode :=
  match op.toNat with
  | 0x1 => some .encsrc
  | 0x2 => some .decsrc
  | 0x3 => some .enctrg
  | 0x4 => some .dectrg
  | 0x5 => some .hex64
  | 0x6 => some .fmtsrc
  | 0x7 => some .fmttrg
  | 0x8 => some .decbkt
  | 0x9 => some .enumfwd
  | 0xA => some .enumrev
  | _ => none

/-- Why a request word is no operation: the two causes of IllegalOp (60_exceptions.md R232). -/
inductive DecodeError where
  /-- The operation code is reserved (R93). -/
  | reservedOp (op : BitVec 4)
  /-- A lookup with table selector 5, 6 or 7 (R101). -/
  | reservedTable (op : BitVec 4) (table : BitVec 3)
  deriving DecidableEq, Repr

/-- The operation code the fault records (R232). -/
def DecodeError.op : DecodeError → BitVec 4
  | .reservedOp op => op
  | .reservedTable op _ => op

/-- `REQ[163:160]` (R90). -/
def opField (w : ReqWord) : BitVec 4 := w.extractLsb' 160 4

/-- The operands of a QSRC payload (R94). -/
def qsrc (w : ReqWord) : SrcOperands where
  type := w.extractLsb' 128 32
  dimension := w.extractLsb' 96 32
  id := w.extractLsb' 64 32
  advertiser := w.extractLsb' 32 32
  publisher := w.extractLsb' 0 32

/-- The operands of a QTRG payload (R95). -/
def qtrg (w : ReqWord) : TrgOperands where
  type := w.extractLsb' 128 32
  id := w.extractLsb' 96 32
  size := w.extractLsb' 64 32
  category := w.extractLsb' 32 32
  option := w.extractLsb' 0 32

/-- The operands of a QBUF payload; `P[23:0]` is ignored (R97). -/
def qbuf (w : ReqWord) : BufOperands where
  len := w.extractLsb' 152 8
  lanes := w.extractLsb' 24 128

/-- The table selector of a QENUM payload (R100). -/
def qenumTable (w : ReqWord) : BitVec 3 := w.extractLsb' 157 3

/-- The `name_id` of an ENUMFWD payload; `P[140:0]` is ignored (R100). -/
def qenumName (w : ReqWord) : NameId := w.extractLsb' 141 16

/-- The `code` of an ENUMREV payload; `P[124:0]` is ignored (R100). -/
def qenumCode (w : ReqWord) : Operand := w.extractLsb' 125 32

/-- Decoding, total on all 164-bit words (R115 steps 1 to 3; step 4, the length check, is made by the operations). -/
def decode (w : ReqWord) : Except DecodeError Instr :=
  match Opcode.ofCode (opField w) with
  | none => .error (.reservedOp (opField w))
  | some .encsrc => .ok (.encsrc (qsrc w))
  | some .decsrc => .ok (.decsrc (qbuf w))
  | some .enctrg => .ok (.enctrg (qtrg w))
  | some .dectrg => .ok (.dectrg (qbuf w))
  | some .hex64 => .ok (.hex64 (qbuf w))
  | some .fmtsrc => .ok (.fmtsrc (qsrc w))
  | some .fmttrg => .ok (.fmttrg (qtrg w))
  | some .decbkt => .ok (.decbkt (qbuf w))
  | some .enumfwd =>
    if tableInRange (qenumTable w) then .ok (.enumfwd (qenumTable w) (qenumName w))
    else .error (.reservedTable (opField w) (qenumTable w))
  | some .enumrev =>
    if tableInRange (qenumTable w) then .ok (.enumrev (qenumTable w) (qenumCode w))
    else .error (.reservedTable (opField w) (qenumTable w))

/-- The QSRC payload of some operands (R94). -/
def qsrcBits (f : SrcOperands) : BitVec 160 :=
  f.type ++ f.dimension ++ f.id ++ f.advertiser ++ f.publisher

/-- The QTRG payload of some operands (R95). -/
def qtrgBits (f : TrgOperands) : BitVec 160 :=
  f.type ++ f.id ++ f.size ++ f.category ++ f.option

/-- The QBUF payload of some operands, its ignored bits 0 (R97, R102). -/
def qbufBits (b : BufOperands) : BitVec 160 := b.len ++ b.lanes ++ 0#24

/-- The request word of an instruction, every ignored bit 0 (R90 to R102). -/
def encode (i : Instr) : ReqWord :=
  match i with
  | .encsrc f => i.opcode.code ++ qsrcBits f
  | .decsrc b => i.opcode.code ++ qbufBits b
  | .enctrg f => i.opcode.code ++ qtrgBits f
  | .dectrg b => i.opcode.code ++ qbufBits b
  | .hex64 b => i.opcode.code ++ qbufBits b
  | .fmtsrc f => i.opcode.code ++ qsrcBits f
  | .fmttrg f => i.opcode.code ++ qtrgBits f
  | .decbkt b => i.opcode.code ++ qbufBits b
  | .enumfwd table nameId => i.opcode.code ++ table ++ nameId ++ 0#141
  | .enumrev table code => i.opcode.code ++ table ++ code ++ 0#125

/-- How many of a request word's low bits the operation's payload format marks "ignored" (R94, R95, R97, R100). -/
def Opcode.ignoredBits : Opcode → Nat
  | .encsrc | .enctrg | .fmtsrc | .fmttrg => 0
  | .decsrc | .dectrg | .hex64 | .decbkt => 24
  | .enumfwd => 141
  | .enumrev => 125

/-- The instruction of an opcode-table word. A request is ONE word of 164 bits whose bit k is `REQ[k]` (R90), which
is the table's own numbering, and `w` has no bit at or above `nbits`, so `w` is the word. None where decoding refuses
it, and where it is no 164-bit word at all. -/
def decodeTableWord (_nbits w : Nat) : Option Instr :=
  if w < 2 ^ 164 then (decode (BitVec.ofNat 164 w)).toOption else none

end Sys2Proof
end

