-- ==== Sys2Proof/Config.lean ====
section
/-! DEFINITION. The configuration of AKC: the two enumeration tables the deployment chooses (00_scope.md R10, R11;
10_state.md R41, R46). The three tables the spec prints are in Machine/Operands.lean. -/

namespace Sys2Proof

/-- One (name, code) pair of an enumeration table (R39). -/
structure Entry where
  /-- The symbolic name, an ASCII string (R19, R46, R47). -/
  name : String
  /-- The integer code the name stands for. -/
  code : Nat
  deriving DecidableEq, Repr

/-- An enumeration table: an ordered list of entries; an entry's `name_id` is its position (R42, R46). -/
abbrev Table := List Entry

/-- Clauses (a) to (d) of R41, for a table whose codes are decoded from a field of values below `bound`:
codes differ, names differ, codes fit the field, and there are at most 65535 entries. -/
def Table.legal (bound : Nat) (t : Table) : Bool :=
  decide (t.map Entry.code).Nodup && decide (t.map Entry.name).Nodup &&
    t.all (fun e => decide (e.code < bound)) && decide (t.length ≤ 65535)

/-- A legal configuration `CFG` = (`ADV_TABLE`, `PUB_TABLE`) (R11). It carries the proofs of legality, the form
93_implementation_defined.md U3 offers, so an illegal configuration cannot be written and nothing is said of one. -/
structure Cfg where
  /-- `ADV_TABLE`, the advertiser table. -/
  adv : Table
  /-- `PUB_TABLE`, the publisher table. -/
  pub : Table
  advLegal : Table.legal 65536 adv = true
  pubLegal : Table.legal 65536 pub = true
  deriving DecidableEq, Repr

/-- The deployment's advertiser table. OPEN (R10, R46): the spec prints no entry, so it has no value here
(notes/assumptions/1.md; DESIGN CHOICE, safe). -/
opaque Config.advTable : Table

/-- The deployment's publisher table. OPEN (R10, R46), as `Config.advTable`. -/
opaque Config.pubTable : Table

/-- `t` where it is a legal table for a 16-bit field, else the empty table. R275: the deployment has chosen legal
tables, so only the first case is ever the hardware's (notes/assumptions/1.md). -/
def Table.orEmpty (t : Table) : Table := if Table.legal 65536 t then t else []

theorem Table.orEmpty_legal (t : Table) : Table.legal 65536 t.orEmpty = true := by
  unfold Table.orEmpty
  split
  · assumption
  · decide

/-- The configuration the hardware was built with: two tables of which nothing is known but that they are legal. -/
def Config.deployment : Cfg where
  adv := Config.advTable.orEmpty
  pub := Config.pubTable.orEmpty
  advLegal := Table.orEmpty_legal _
  pubLegal := Table.orEmpty_legal _

end Sys2Proof
end

