-- ==== Sys2Proof/Machine/State.lean ====
section
/-! DEFINITION. The state of AKC with its ports, the reasons a step can stop, and the state after reset.

AKC itself keeps nothing from one operation to the next (10_state.md R30 to R37). What changes as it runs is its ports
(R38), namely the level of the reset input (70_reset_and_hazards.md R272), the requests handed to it and not yet answered,
and the replies it has given. The configuration it was built with is a parameter (R11, R51). -/

namespace Sys2Proof.Machine

/-- A request waiting on a port (R24, R260). Ports are numbered by the model (DESIGN CHOICE, safe:
notes/assumptions/2.md). -/
structure Request where
  port : Nat
  word : ReqWord
  deriving DecidableEq, Repr

/-- A response word, with the port it was given on (R24, R261). -/
structure Reply where
  port : Nat
  word : RespWord
  deriving DecidableEq, Repr

/-- The ports of AKC: all that changes as it runs. `CFG` is no part of it (R51). -/
structure Ports where
  /-- The level of the reset input: true while reset is asserted (R272). -/
  resetAsserted : Bool
  /-- The requests accepted and not yet answered, of all ports, in the order in which AKC will take them. Any
  interleaving of the ports' own sequences may stand here (R260, R261; notes/assumptions/2.md). -/
  requests : List Request
  /-- The port of the request being answered; each step sets it before the operation runs. -/
  serving : Nat
  /-- The replies given, oldest first. No step reads them (R262; notes/assumptions/2.md). -/
  responses : List Reply
  deriving DecidableEq, Repr

/-- The ports of an AKC together with the configuration it was built with. `CFG` is a parameter of the step function,
`stepUnder`, which takes it apart from the ports (R51); the host's interface gives a machine no parameter, so the
argument stands here (notes/assumptions/1.md; DESIGN CHOICE, safe). -/
structure State extends Ports where
  /-- `CFG`: constant; no step writes it (R11, R50). -/
  cfg : Cfg
  deriving DecidableEq, Repr

/-- The ports `p` of an AKC of configuration `cfg`. -/
def Ports.under (p : Ports) (cfg : Cfg) : State := { p with cfg := cfg }

/-- Why AKC takes no step. The spec's own faults (LengthMismatch, LookupFail, IllegalOp) are none of these: they are
responses, and the step that gives one answers `next` (60_exceptions.md R239). -/
inductive Fault where
  /-- Raised by `step` while reset is asserted: "a model gives it no step" (R272; U9 stuck). Safe. -/
  | resetAsserted
  /-- Raised by `step` when no request waits: a step takes one request word (R20), and the response port has no
  value between responses (R38). Safe: AKC has nothing to do (DEDUCED: notes/assumptions/3.md). -/
  | noRequest
  deriving DecidableEq, Repr

/-- Why an operation has no meaning in the model. -/
inductive Refusal where
  /-- Raised by `exec` for an operation without a meaning. Safe. No arm raises it: all ten have their meaning. -/
  | notModelled (mnemonic : String)
  deriving DecidableEq, Repr

/-- AKC at the moment reset is released: nothing is set, because there is nothing to set (R50, R270); the tables hold
their constant contents (R271). No request waits and none has been answered. `serving` has no reset value in the spec
(DESIGN CHOICE, unsafe: notes/assumptions/2.md). -/
def Ports.reset : Ports where
  resetAsserted := false
  requests := []
  serving := 0
  responses := []

/-- The ports after reset, of an AKC of the deployment's configuration (R271, R275). -/
def State.reset : State := Ports.reset.under Config.deployment

end Sys2Proof.Machine
end

