-- ==== Sys2Proof/Machine/Operands.lean ====
section
/-! DEFINITION. Operand forms: the byte lanes and buffers (00_scope.md R15, R16; 20_memory.md sections 1 to 3), the
ranges of field operands (R18, R280), and the five enumeration tables with their two directions (10_state.md section 2,
44_enum_lookup.md R213, R214). -/

namespace Sys2Proof.Machine

/-! ### Buffers -/

/-- `lane[k]` = `P[151-8k : 144-8k]` for k = 0 to 15, within the 128 lane bits `P[151:24]` (R97). -/
def lane (lanes : BitVec 128) (k : Nat) : Byte := lanes.extractLsb' (120 - 8 * k) 8

/-- The first `n` lanes as a buffer, lane 0 at offset 0 (R76: an operation examines only lanes 0 to n-1). -/
def laneBytes (lanes : BitVec 128) (n : Nat) : Buffer := (List.range n).map (lane lanes)

/-- `B[o]`. Used only at offsets inside the buffer (R75), so the value outside it is in no result (DESIGN CHOICE, safe:
notes/assumptions/8.md). -/
def byteAt (B : Buffer) (o : Nat) : Byte := B.getD o 0#8

/-- `be16(B, o)`: big-endian, the most significant byte at the lowest offset (R15, R60). -/
def be16 (B : Buffer) (o : Nat) : BitVec 16 := byteAt B o ++ byteAt B (o + 1)

/-- `be32(B, o)` (R15). -/
def be32 (B : Buffer) (o : Nat) : BitVec 32 :=
  byteAt B o ++ byteAt B (o + 1) ++ byteAt B (o + 2) ++ byteAt B (o + 3)

/-- `be64(B, o)` (R15). -/
def be64 (B : Buffer) (o : Nat) : BitVec 64 := be32 B o ++ be32 B (o + 4)

/-- `bytes_be(v, n)`: the byte at offset k is `v[8(n-k)-1 : 8(n-k-1)]` (R15). -/
def bytesBE {w : Nat} (v : BitVec w) (n : Nat) : Buffer :=
  (List.range n).map fun k => v.extractLsb' (8 * (n - k - 1)) 8

/-- `MemWrite(B, off, n, v)`: sets `B[off .. off+n-1]` to `bytes_be(v, n)` and nothing else (R16). -/
def memWrite {w : Nat} (B : Buffer) (off n : Nat) (v : BitVec w) : Buffer :=
  B.take off ++ bytesBE v n ++ B.drop (off + n)

/-- The response buffer of an encoder before its stores. Each encoder stores to all eight bytes (R70), so what it
holds at first is in no result (DESIGN CHOICE, safe: notes/assumptions/8.md). -/
def recordBuffer : Buffer := List.replicate 8 0#8

/-! ### Ranges of field operands -/

/-- Every field of a source record fits its declared width (R18, R130, R280). AKC never checks this (R134). -/
def srcInRange (f : SrcOperands) : Bool :=
  decide (f.type.toNat < 4) && decide (f.dimension.toNat < 64) && decide (f.id.toNat < 2 ^ 24) &&
    decide (f.advertiser.toNat < 2 ^ 16) && decide (f.publisher.toNat < 2 ^ 16)

/-- Every field of a trigger record fits its declared width (R18, R150, R280). AKC never checks this (R154). -/
def trgInRange (f : TrgOperands) : Bool :=
  decide (f.type.toNat < 2 ^ 8) && decide (f.id.toNat < 2 ^ 24) && decide (f.size.toNat < 2 ^ 8) &&
    decide (f.category.toNat < 2 ^ 8) && decide (f.option.toNat < 2 ^ 16)

/-! ### The enumeration tables -/

/-- Table `SOURCE_TYPE` (R40): code 1 is reserved and has no entry. -/
def sourceTypeTable : Table := [⟨"unknown", 0⟩, ⟨"click", 2⟩, ⟨"view", 3⟩]

/-- Table `TRIGGER_TYPE` (R43). -/
def triggerTypeTable : Table := [⟨"quantity", 0x80⟩, ⟨"gross", 0xC0⟩]

/-- Table `DIMENSION` (R45). -/
def dimensionTable : Table := [⟨"quantity", 0⟩, ⟨"gross", 1⟩]

/-- The table a selector names: 0 `SOURCE_TYPE`, 1 `TRIGGER_TYPE`, 2 `DIMENSION`, 3 `ADVERTISER`, 4 `PUBLISHER`;
none for the reserved 5, 6, 7 (R39, R101). -/
def selectTable (cfg : Cfg) (sel : BitVec 3) : Option Table :=
  match sel.toNat with
  | 0 => some sourceTypeTable
  | 1 => some triggerTypeTable
  | 2 => some dimensionTable
  | 3 => some cfg.adv
  | 4 => some cfg.pub
  | _ => none

/-- `fwd(T, i)`: the code of the entry at position `i` (R213). -/
def fwd (T : Table) (i : NameId) : Option Nat := (T[i.toNat]?).map Entry.code

/-- `rev(T, c)`: the position of the entry whose code is `c`, compared as whole numbers (R214, R217). On the legal
tables there is at most one such entry, so the direction of the scan cannot be observed (R49; DESIGN CHOICE, safe:
notes/assumptions/10.md). -/
def rev (T : Table) (c : Nat) : Option NameId :=
  (T.findIdx? fun e => e.code == c).map (BitVec.ofNat 16)

end Sys2Proof.Machine
end

