-- ==== Sys2Proof/Machine/Flags.lean ====
section
/-! DEFINITION. AKC has no flags and no condition codes (10_state.md R32). The only status it produces is the 4-bit
`status` field of each response (30_encoding.md R104). -/

namespace Sys2Proof.Machine

/-- The four status values AKC produces; 4 to 15 are never produced (R104, U10). -/
inductive Status where
  | ok | lengthMismatch | lookupFail | illegalOp
  deriving DecidableEq, Repr

/-- The number of a status (R104). -/
def Status.code : Status → BitVec 4
  | .ok => 0#4
  | .lengthMismatch => 1#4
  | .lookupFail => 2#4
  | .illegalOp => 3#4

end Sys2Proof.Machine
end

