-- ==== Sys2Proof/Machine/Response.lean ====
section
/-! DEFINITION. The response word: its payload formats (30_encoding.md R103 to R114) and the requester's reading of
them. Every payload bit that no format assigns is 0, and results are left-aligned (R103). -/

namespace Sys2Proof.Machine

/-- The fields a source decoder returns, at their declared widths (R9, R106). -/
structure SrcFields where
  type : BitVec 2
  dimension : BitVec 6
  id : BitVec 24
  advertiser : BitVec 16
  publisher : BitVec 16
  deriving DecidableEq, Repr

/-- The fields a trigger decoder returns, at their declared widths (R9, R107). -/
structure TrgFields where
  type : BitVec 8
  id : BitVec 24
  size : BitVec 8
  category : BitVec 8
  option : BitVec 16
  deriving DecidableEq, Repr

/-- A decoded bucket: ten numeric fields and five name results, `none` where a lookup found no entry (R110, R191). -/
structure Bucket where
  src : SrcFields
  trg : TrgFields
  sourceType : Option NameId
  dimension : Option NameId
  advertiser : Option NameId
  publisher : Option NameId
  triggerType : Option NameId
  deriving DecidableEq, Repr

/-- What a response carries. -/
inductive Payload where
  /-- RREC: a record value `V` (R105). -/
  | rrec (value : BitVec 64)
  /-- RSRC (R106). -/
  | rsrc (f : SrcFields)
  /-- RTRG (R107). -/
  | rtrg (f : TrgFields)
  /-- RHEX: 16 characters (R108). -/
  | rhex (digits : Buffer)
  /-- RKP: 34 characters (R109). -/
  | rkp (keyPiece : Buffer)
  /-- RBKT (R110). -/
  | rbkt (b : Bucket)
  /-- RENUMR: one name result (R112). -/
  | renumr (found : Option NameId)
  /-- RENUMF: a code (R113). -/
  | renumf (found : Option Nat)
  /-- The information of LENGTH_MISMATCH (R114). -/
  | lengths (required stated : Byte)
  /-- The information of ILLEGAL_OP (R114). -/
  | illegal (op : BitVec 4)
  deriving DecidableEq, Repr

/-- A name result, `valid ++ name_id`; the identifier of "no name" is 0xFFFF (R42, R111). -/
def nameResultBits : Option NameId → BitVec 17
  | some i => 1#1 ++ i
  | none => 0#1 ++ 0xFFFF#16

/-- A forward result, `valid ++ code`; the code of "no entry" is 0xFFFFFFFF (R113). -/
def codeResultBits : Option Nat → BitVec 33
  | some c => 1#1 ++ BitVec.ofNat 32 c
  | none => 0#1 ++ 0xFFFFFFFF#32

/-- The 64 bits of the source fields inside RSRC and RBKT (R106). -/
def srcBits (f : SrcFields) : BitVec 64 :=
  f.type ++ f.dimension ++ f.id ++ f.advertiser ++ f.publisher

/-- The 64 bits of the trigger fields inside RTRG and RBKT (R107). -/
def trgBits (f : TrgFields) : BitVec 64 :=
  f.type ++ f.id ++ f.size ++ f.category ++ f.option

/-- A string as bits, first character most significant, right-aligned in `n` bits (R108, R109). -/
def packBytes (n : Nat) (s : Buffer) : BitVec n :=
  s.foldl (fun acc c => acc <<< 8 ||| c.setWidth n) 0#n

/-- The payload `Q` of a response (R105 to R114). -/
def Payload.bits : Payload → RespPayload
  | .rrec v => v ++ 0#208
  | .rsrc f => srcBits f ++ 0#208
  | .rtrg f => trgBits f ++ 0#208
  | .rhex digits => packBytes 128 digits ++ 0#144
  | .rkp keyPiece => packBytes 272 keyPiece
  | .rbkt b =>
    srcBits b.src ++ trgBits b.trg ++ nameResultBits b.sourceType ++ nameResultBits b.dimension ++
      nameResultBits b.advertiser ++ nameResultBits b.publisher ++ nameResultBits b.triggerType ++ 0#59
  | .renumr found => nameResultBits found ++ 0#255
  | .renumf found => codeResultBits found ++ 0#239
  | .lengths required stated => required ++ stated ++ 0#256
  | .illegal op => op ++ 0#268

/-- The response word: status above payload (R103). -/
def respWord (status : Status) (p : Payload) : RespWord := status.code ++ p.bits

/-! ### The requester's reading of a response word -/

/-- `RESP[275:272]` (R103). -/
def statusField (w : RespWord) : BitVec 4 := w.extractLsb' 272 4

/-- The string of the first `n` characters of an RHEX or RKP payload: character j is `Q[271-8j : 264-8j]`
(R108, R109). -/
def respString (n : Nat) (w : RespWord) : Buffer :=
  (List.range n).map fun j => w.extractLsb' (264 - 8 * j) 8

/-- The record value of an RREC payload, `Q[271:208]` (R105). -/
def respRecord (w : RespWord) : BitVec 64 := w.extractLsb' 208 64

/-- The `n`-th of the five name results of an RBKT payload (R110), read as R111 says. -/
def respName (n : Nat) (w : RespWord) : Option NameId :=
  if w.extractLsb' (143 - 17 * n) 1 = 1#1 then some (w.extractLsb' (127 - 17 * n) 16) else none

/-- The source fields of an RSRC or RBKT payload (R106, R110). -/
def respSrc (w : RespWord) : SrcFields where
  type := w.extractLsb' 270 2
  dimension := w.extractLsb' 264 6
  id := w.extractLsb' 240 24
  advertiser := w.extractLsb' 224 16
  publisher := w.extractLsb' 208 16

/-- The trigger fields of an RBKT payload (R110). -/
def respBucketTrg (w : RespWord) : TrgFields where
  type := w.extractLsb' 200 8
  id := w.extractLsb' 176 24
  size := w.extractLsb' 168 8
  category := w.extractLsb' 160 8
  option := w.extractLsb' 144 16

end Sys2Proof.Machine
end

