-- ==== Sys2Proof/Machine/Ops.lean ====
section
/-! DEFINITION. The named operations every step and every operation of AKC is made of: taking a request, giving a
response, raising a fault, the length check and the table selection; and what the host can do to the ports and to the
reset input. AKC has no addressable memory (10_state.md R36), so there is no memory operation here. -/

namespace Sys2Proof.Machine

/-- The outcome of a step of AKC. -/
abbrev Result := Host.Outcome State Fault Refusal

/-! ### Responses and faults -/

/-- Give a response word on the port being served. -/
def State.deliver (s : State) (w : RespWord) : State :=
  { s with responses := s.responses ++ [⟨s.serving, w⟩] }

/-- `respond status, payload`: the operation completes with one response (R103). -/
def respond (status : Status) (p : Payload) (s : State) : Result :=
  .next (s.deliver (respWord status p))

/-- The three faults with what each records (60_exceptions.md R232 to R234; 30_encoding.md R114). -/
inductive AkcFault where
  /-- A reserved `op`, or a reserved `table` of a lookup. -/
  | illegalOp (op : BitVec 4)
  /-- A buffer request that states the wrong length. -/
  | lengthMismatch (required stated : Byte)
  /-- A lookup that finds no entry; the payload carries the `valid = 0` marks. -/
  | lookupFail (info : Payload)
  deriving DecidableEq, Repr

/-- `raise`: TAKING A FAULT. It is delivered as the response to the request that caused it, with the fault's status
and information. Nothing is saved, no mode changes and control goes nowhere, so there is nothing to return from
(R17, R239, R240). -/
def raise (f : AkcFault) (s : State) : Result :=
  match f with
  | .illegalOp op => respond .illegalOp (.illegal op) s
  | .lengthMismatch required stated => respond .lengthMismatch (.lengths required stated) s
  | .lookupFail info => respond .lookupFail info s

/-- The length check of a buffer operation, before any lane is read (R75, R115 step 4, R233). -/
def withLength (required : Byte) (b : BufOperands) (run : State → Result) (s : State) : Result :=
  if b.len = required then run s else raise (.lengthMismatch required b.len) s

/-- The table selection of a lookup; a reserved selector is IllegalOp (R101, R215, R216). -/
def withTable (op : BitVec 4) (sel : BitVec 3) (run : Table → State → Result) (s : State) : Result :=
  match selectTable s.cfg sel with
  | some T => run T s
  | none => raise (.illegalOp op) s

/-! ### Ports and reset -/

/-- Take request `r` off the waiting requests, `rest` being the others, and serve its port. -/
def State.accept (s : State) (r : Request) (rest : List Request) : State :=
  { s with requests := rest, serving := r.port }

/-- The host presents a request on a port. While reset is asserted it is not accepted (R272). -/
def State.present (s : State) (r : Request) : State :=
  if s.resetAsserted then s else { s with requests := s.requests ++ [r] }

/-- The host asserts reset: every request accepted and not yet answered is lost (R272). Replies already given are the
requesters' (DESIGN CHOICE, safe: notes/assumptions/5.md). -/
def State.assertReset (s : State) : State :=
  { s with resetAsserted := true, requests := [] }

/-- The host releases reset. Nothing is set (R270); the tables are in place (R271). -/
def State.releaseReset (s : State) : State :=
  { s with resetAsserted := false }

end Sys2Proof.Machine
end

