-- ==== Sys2Proof/Machine/SourceCodec.lean ====
section
/-! DEFINITION. The source key encoder and decoder (40_source_codec.md). -/

namespace Sys2Proof.Machine

/-- The EncodedRecord of a source record, by the three stores of R131: a 32-bit word at offset 0, `advertiser` at 4
and `publisher` at 6. The first word is the low 32 bits of the exact integer (R14, R131). No operand is checked
(R134); the reading of operands out of range is the spec's (notes/assumptions/6.md). -/
def encodeSrc (f : SrcOperands) : Buffer :=
  let w0 : BitVec 32 :=
    BitVec.ofNat 32 ((((f.type.toNat <<< 6) ||| f.dimension.toNat) <<< 24) ||| f.id.toNat)
  memWrite (memWrite (memWrite recordBuffer 0 4 w0) 4 2 (f.advertiser.setWidth 16)) 6 2
    (f.publisher.setWidth 16)

/-- The source fields of the 8 bytes at offset `o`, by the loads of R71 and the cuts of R138. -/
def decodeSrc (B : Buffer) (o : Nat) : SrcFields :=
  let w0 := be32 B o
  { type := w0.extractLsb' 30 2
    dimension := w0.extractLsb' 24 6
    id := w0.extractLsb' 0 24
    advertiser := be16 B (o + 4)
    publisher := be16 B (o + 6) }

/-- ENCSRC (R131). It answers OK for every operand combination. -/
def execEncsrc (f : SrcOperands) (s : State) : Result :=
  respond .ok (.rrec (be64 (encodeSrc f) 0)) s

/-- DECSRC (R138). -/
def execDecsrc (b : BufOperands) (s : State) : Result :=
  withLength 8#8 b (respond .ok (.rsrc (decodeSrc (laneBytes b.lanes 8) 0))) s

end Sys2Proof.Machine
end

