-- ==== Sys2Proof/Machine/TriggerCodec.lean ====
section
/-! DEFINITION. The trigger key encoder and decoder (41_trigger_codec.md). -/

namespace Sys2Proof.Machine

/-- The EncodedRecord of a trigger record, by the four stores of R151: a 32-bit word at offset 0, `size` at 4,
`category` at 5 and `option` at 6. No operand is checked (R154). -/
def encodeTrg (f : TrgOperands) : Buffer :=
  let w0 : BitVec 32 := BitVec.ofNat 32 ((f.type.toNat <<< 24) ||| f.id.toNat)
  memWrite (memWrite (memWrite (memWrite recordBuffer 0 4 w0) 4 1 (f.size.setWidth 8)) 5 1
    (f.category.setWidth 8)) 6 2 (f.option.setWidth 16)

/-- The trigger fields of the 8 bytes at offset `o`, by the loads of R71 and the cuts of R158. -/
def decodeTrg (B : Buffer) (o : Nat) : TrgFields :=
  let w0 := be32 B o
  { type := w0.extractLsb' 24 8
    id := w0.extractLsb' 0 24
    size := byteAt B (o + 4)
    category := byteAt B (o + 5)
    option := be16 B (o + 6) }

/-- ENCTRG (R151). It answers OK for every operand combination. -/
def execEnctrg (f : TrgOperands) (s : State) : Result :=
  respond .ok (.rrec (be64 (encodeTrg f) 0)) s

/-- DECTRG (R158). -/
def execDectrg (b : BufOperands) (s : State) : Result :=
  withLength 8#8 b (respond .ok (.rtrg (decodeTrg (laneBytes b.lanes 8) 0))) s

end Sys2Proof.Machine
end

