-- ==== Sys2Proof/Machine/BucketDecoder.lean ====
section
/-! DEFINITION. The bucket decoder (43_bucket_decode.md), and the `DecodedBucket` a host recovers from its response
(R196). -/

namespace Sys2Proof.Machine

/-- The bucket's two records, split at offset 8, and the five reverse lookups (R191 to R193). -/
def decodeBucket (cfg : Cfg) (K : Buffer) : Bucket :=
  let s := decodeSrc K 0
  let t := decodeTrg K 8
  { src := s
    trg := t
    sourceType := rev sourceTypeTable s.type.toNat
    dimension := rev dimensionTable s.dimension.toNat
    advertiser := rev cfg.adv s.advertiser.toNat
    publisher := rev cfg.pub s.publisher.toNat
    triggerType := rev triggerTypeTable t.type.toNat }

/-- Did all five lookups find an entry (R195)? -/
def Bucket.allFound (b : Bucket) : Bool :=
  b.sourceType.isSome && b.dimension.isSome && b.advertiser.isSome && b.publisher.isSome && b.triggerType.isSome

/-- DECBKT (R191). A lookup that fails stops nothing: the whole payload is delivered, under status LOOKUP_FAIL
(R194). -/
def execDecbkt (b : BufOperands) (s : State) : Result :=
  withLength 16#8 b (fun s =>
    let bucket := decodeBucket s.cfg (laneBytes b.lanes 16)
    if bucket.allFound then respond .ok (.rbkt bucket) s
    else raise (.lookupFail (.rbkt bucket)) s) s

/-! ### The host's reading of a decoded bucket -/

/-- `aggregation_keys` of a `DecodedBucket`; a name of `none` is the distinguished value "unrecognized" (R196). -/
structure AggregationKeys where
  type : Option String
  dimension : Option String
  id : BitVec 24
  advertiser : Option String
  publisher : Option String
  deriving DecidableEq, Repr

/-- `aggregatable_trigger_data` of a `DecodedBucket` (R196). -/
structure TriggerData where
  type : Option String
  id : BitVec 24
  size : BitVec 8
  category : BitVec 8
  option : BitVec 16
  deriving DecidableEq, Repr

/-- The source's `DecodedBucket` (R23, R196). -/
structure DecodedBucket where
  aggregationKeys : AggregationKeys
  triggerData : TriggerData
  deriving DecidableEq, Repr

/-- `name_of(table, result)` (R196). -/
def nameOf (T : Table) (found : Option NameId) : Option String :=
  found.bind fun i => (T[i.toNat]?).map Entry.name

/-- The `DecodedBucket` of an RBKT response word (R196). -/
def decodedBucket (cfg : Cfg) (w : RespWord) : DecodedBucket where
  aggregationKeys :=
    { type := nameOf sourceTypeTable (respName 0 w)
      dimension := nameOf dimensionTable (respName 1 w)
      id := (respSrc w).id
      advertiser := nameOf cfg.adv (respName 2 w)
      publisher := nameOf cfg.pub (respName 3 w) }
  triggerData :=
    { type := nameOf triggerTypeTable (respName 4 w)
      id := (respBucketTrg w).id
      size := (respBucketTrg w).size
      category := (respBucketTrg w).category
      option := (respBucketTrg w).option }

end Sys2Proof.Machine
end

