-- ==== Sys2Proof/Machine/EnumLookup.lean ====
section
/-! DEFINITION. Enumeration lookup (44_enum_lookup.md). No lookup has a default (R221). -/

namespace Sys2Proof.Machine

/-- ENUMFWD (R215). -/
def execEnumfwd (table : BitVec 3) (nameId : NameId) (s : State) : Result :=
  withTable Opcode.enumfwd.code table (fun T s =>
    match fwd T nameId with
    | some c => respond .ok (.renumf (some c)) s
    | none => raise (.lookupFail (.renumf none)) s) s

/-- ENUMREV (R216). All 32 bits of the operand are compared (R217). -/
def execEnumrev (table : BitVec 3) (code : Operand) (s : State) : Result :=
  withTable Opcode.enumrev.code table (fun T s =>
    match rev T code.toNat with
    | some i => respond .ok (.renumr (some i)) s
    | none => raise (.lookupFail (.renumr none)) s) s

/-! ### The other procedure of R49 -/

/-- The inverse map of a table, built once by inserting its entries in order, from position `pos` on; a later entry
comes to stand before an earlier one (R49, R276, 90_conflicts.md C5). -/
def inverseMap (T : Table) (pos : Nat) (built : List (Nat × NameId)) : List (Nat × NameId) :=
  match T with
  | [] => built
  | e :: rest => inverseMap rest (pos + 1) ((e.code, BitVec.ofNat 16 pos) :: built)

/-- Reverse lookup by the precomputed inverse map. AKC may use it in place of `rev`, which gives the same answer on
every legal table (R49). -/
def revByMap (T : Table) (c : Nat) : Option NameId := (inverseMap T 0 []).lookup c

end Sys2Proof.Machine
end

