-- ==== Sys2Proof/Machine/KeyPiece.lean ====
section
/-! DEFINITION. The hexadecimal formatter and the key-piece formatters (42_keypiece_format.md), and the value a key
piece spells, which the host computes and AKC does not (R174). -/

namespace Sys2Proof.Machine

/-- `hexdigit(n)`: one lower-case ASCII digit (R171; PRESUMED by the spec, G1: notes/assumptions/7.md). -/
def hexdigit (n : BitVec 4) : Byte :=
  if n.toNat < 10 then 0x30#8 + n.setWidth 8 else 0x61#8 + (n.setWidth 8 - 10#8)

/-- Two digits per byte, the high nibble first, in offset order (R172). -/
def hexString (B : Buffer) : Buffer :=
  B.flatMap fun b => [hexdigit (b.extractLsb' 4 4), hexdigit (b.extractLsb' 0 4)]

/-- The characters `0x` (R171). -/
def keyPrefix : Buffer := [0x30#8, 0x78#8]

/-- `"0" * 16` (R19). -/
def zeroDigits : Buffer := List.replicate 16 0x30#8

/-- HEX64 (R172). -/
def execHex64 (b : BufOperands) (s : State) : Result :=
  withLength 8#8 b (respond .ok (.rhex (hexString (laneBytes b.lanes 8)))) s

/-- FMTSRC: the record's 16 digits in the upper half, leading zeros printed, 16 zeros in the lower (R176, R177). -/
def execFmtsrc (f : SrcOperands) (s : State) : Result :=
  respond .ok (.rkp (keyPrefix ++ hexString (encodeSrc f) ++ zeroDigits)) s

/-- FMTTRG: 16 zeros in the upper half, the record's 16 digits in the lower (R180). -/
def execFmttrg (f : TrgOperands) (s : State) : Result :=
  respond .ok (.rkp (keyPrefix ++ zeroDigits ++ hexString (encodeTrg f))) s

/-! ### The host's reading of a key piece -/

/-- Is `c` one of the characters `0` to `9`, `a` to `f`? -/
def isHexDigit (c : Byte) : Bool :=
  (decide (0x30 ≤ c.toNat) && decide (c.toNat ≤ 0x39)) || (decide (0x61 ≤ c.toNat) && decide (c.toNat ≤ 0x66))

/-- The value of a hexadecimal digit. -/
def digitValue (c : Byte) : Nat := if c.toNat ≤ 0x39 then c.toNat - 0x30 else c.toNat - 0x61 + 10

/-- Does the string match `^0x[0-9a-f]{32}$` (R170)? -/
def isKeyPiece (S : Buffer) : Bool :=
  decide (S.length = 34) && decide (S.take 2 = keyPrefix) && (S.drop 2).all isHexDigit

/-- `kp_value(S)`, the sum of R174; none for a string that is no key piece, where it is not defined (U13;
notes/assumptions/12.md). -/
def kpValue (S : Buffer) : Option (BitVec 128) :=
  if isKeyPiece S then
    some (BitVec.ofNat 128
      ((List.range 32).map fun j => digitValue (byteAt S (2 + j)) <<< (4 * (31 - j))).sum)
  else none

/-- `kp_bytes(S)`, the 16-byte big-endian form, laid out as a bucket buffer (R174, R62). -/
def kpBytes (S : Buffer) : Option Buffer := (kpValue S).map fun v => bytesBE v 16

end Sys2Proof.Machine
end

