-- ==== Sys2Proof/Machine/Dispatch.lean ====
section
/-! DEFINITION. What each operation does: one arm per constructor of Instr, each a call of its meaning. -/

namespace Sys2Proof.Machine

def exec (i : Instr) (s : State) : Host.Outcome State Fault Refusal :=
  match i with
  | .encsrc f => Sys2Proof.Machine.execEncsrc f s
  | .decsrc b => Sys2Proof.Machine.execDecsrc b s
  | .enctrg f => Sys2Proof.Machine.execEnctrg f s
  | .dectrg b => Sys2Proof.Machine.execDectrg b s
  | .hex64 b => Sys2Proof.Machine.execHex64 b s
  | .fmtsrc f => Sys2Proof.Machine.execFmtsrc f s
  | .fmttrg f => Sys2Proof.Machine.execFmttrg f s
  | .decbkt b => Sys2Proof.Machine.execDecbkt b s
  | .enumfwd table nameId => Sys2Proof.Machine.execEnumfwd table nameId s
  | .enumrev table code => Sys2Proof.Machine.execEnumrev table code s

end Sys2Proof.Machine
end

