-- ==== Sys2Proof/Machine/Answer.lean ====
section
/-! DEFINITION. Answering one request word (30_encoding.md R115). -/

namespace Sys2Proof.Machine

/-- Answer one request, already taken off its port: run the operation the word decodes to, or raise IllegalOp where it
decodes to none (R115, R232). -/
def answer (word : ReqWord) (s : State) : Host.Outcome State Fault Refusal :=
  match decode word with
  | .ok i => exec i s
  | .error e => raise (.illegalOp e.op) s

end Sys2Proof.Machine
end

