-- ==== Sys2Proof/Machine/Step.lean ====
section
/-! DEFINITION. One step of AKC: it takes one request word and gives one response word (00_scope.md R20, R21). -/

namespace Sys2Proof.Machine

/-- The ports an operation leaves; the configuration it ran under is dropped, since it writes none (R11). -/
def portsOf : Result → Host.Outcome Ports Fault Refusal
  | .next t => .next t.toPorts
  | .fault f => .fault f
  | .refused r => .refused r

/-- The ports after a step, together again with the configuration the step ran under. -/
def underCfg (cfg : Cfg) : Host.Outcome Ports Fault Refusal → Result
  | .next q => .next (q.under cfg)
  | .fault f => .fault f
  | .refused r => .refused r

/-- One step of AKC, from ports to ports, with `CFG` a parameter (R20, R51). While reset is asserted there is none
(R272), and with no request waiting there is none to take (R20). -/
def stepUnder (cfg : Cfg) (p : Ports) : Host.Outcome Ports Fault Refusal :=
  if p.resetAsserted then .fault .resetAsserted
  else
    match p.requests with
    | [] => .fault .noRequest
    | r :: rest => portsOf (answer r.word ((p.under cfg).accept r rest))

/-- The step the host runs: `stepUnder`, applied to the configuration the machine was built with. -/
def step (s : State) : Host.Outcome State Fault Refusal :=
  underCfg s.cfg (stepUnder s.cfg s.toPorts)

/-- `s` with an instruction word as the next request AKC takes, on port 0, and reset released, so that the next step
runs it. A request is one 164-bit word whose bit k is `REQ[k]` (R90), which is the table's own numbering. A program is
a list of requests the host sends (R31): this stands for the host's sending one (DEDUCED: notes/assumptions/4.md). -/
def State.withFetchWord (s : State) (_nbits w : Nat) : State :=
  { s with resetAsserted := false, requests := ⟨0, BitVec.ofNat 164 w⟩ :: s.requests }

end Sys2Proof.Machine
end

