-- ==== Sys2Proof/Safety.lean ====
section
/-! DEFINITION. The notions the statements are written in: what it is for an operation to answer, the function
`RESP = AKC(REQ, CFG)` of 00_scope.md R21, the replies of one port, and what a reply may look like. -/

namespace Sys2Proof.Machine

/-- THE OPERATION COMPLETES: `exec i s` answers a next state, and that state is `s` with one reply more, the word `w`
on the port being served. Nothing else of the state changes: this is completion, result and frame in one. -/
def Answers (i : Instr) (s : State) (w : RespWord) : Prop :=
  exec i s = .next { s with responses := s.responses ++ [⟨s.serving, w⟩] }

/-- The state of an AKC of configuration `cfg`, out of reset, with one request waiting and nothing answered yet. -/
def State.fresh (cfg : Cfg) (req : ReqWord) : State where
  cfg := cfg
  resetAsserted := false
  requests := [⟨0, req⟩]
  serving := 0
  responses := []

/-- `AKC(REQ, CFG)`: the word an AKC that has answered nothing before gives to `req` (R21). -/
def akc (cfg : Cfg) (req : ReqWord) : Option RespWord :=
  match step (State.fresh cfg req) with
  | .next t => t.responses.head?.map Reply.word
  | .fault _ => none
  | .refused _ => none

/-- The words waiting on port `p`, oldest first. -/
def State.requestsOn (s : State) (p : Nat) : List ReqWord :=
  (s.requests.filter fun r => r.port == p).map Request.word

/-- The words answered on port `p`, oldest first. -/
def State.repliesOn (s : State) (p : Nat) : List RespWord :=
  (s.responses.filter fun r => r.port == p).map Reply.word

/-- The 16 digit characters, by value (the third row of R171's table). -/
def hexDigits : Buffer :=
  [0x30#8, 0x31#8, 0x32#8, 0x33#8, 0x34#8, 0x35#8, 0x36#8, 0x37#8, 0x38#8, 0x39#8, 0x61#8, 0x62#8, 0x63#8, 0x64#8,
    0x65#8, 0x66#8]

/-- Character `j` of the string in an RHEX or RKP payload: `Q[271-8j : 264-8j]` (R108, R109). -/
def charAt (w : RespWord) (j : Nat) : Byte := w.extractLsb' (264 - 8 * j) 8

/-- `n` is the name result of looking code `c` up in table `T` (R111, R214): valid, with the position of an entry of
that code, or not valid, with 0xFFFF, where the table has no such entry. -/
def IsNameResult (T : Table) (c : Nat) (n : BitVec 17) : Prop :=
  (∃ i e, T[i]? = some e ∧ e.code = c ∧ i < 65535 ∧ n = 1#1 ++ BitVec.ofNat 16 i) ∨
    ((∀ e ∈ T, e.code ≠ c) ∧ n = 0#1 ++ 0xFFFF#16)

/-- The information part of a fault response as R114 lists it, by status: under LENGTH_MISMATCH a required length of
8 or 16 and another stated one, and nothing else; under LOOKUP_FAIL the failed RENUMR or RENUMF payload, or an RBKT
payload with a failed name result; under ILLEGAL_OP a reserved operation code or that of a lookup, and nothing else. -/
def legalFaultInfo (status : BitVec 4) (q : RespPayload) : Bool :=
  if status = 1#4 then
    (q.extractLsb' 264 8 == 8#8 || q.extractLsb' 264 8 == 16#8) &&
      q.extractLsb' 256 8 != q.extractLsb' 264 8 && q.extractLsb' 0 256 == 0#256
  else if status = 2#4 then
    q == 0#1 ++ 0xFFFF#16 ++ 0#255 || q == 0#1 ++ 0xFFFFFFFF#32 ++ 0#239 ||
      (q.extractLsb' 0 59 == 0#59 &&
        (q.extractLsb' 127 17 == 0xFFFF#17 || q.extractLsb' 110 17 == 0xFFFF#17 ||
          q.extractLsb' 93 17 == 0xFFFF#17 || q.extractLsb' 76 17 == 0xFFFF#17 ||
          q.extractLsb' 59 17 == 0xFFFF#17))
  else if status = 3#4 then
    (q.extractLsb' 268 4 == 0#4 || decide (9 ≤ (q.extractLsb' 268 4).toNat)) && q.extractLsb' 0 268 == 0#268
  else true

/-- A word AKC may answer with: status 0 to 3 (R104), and under a fault status only that fault's information
(R114). -/
def legalReplyWord (w : RespWord) : Bool :=
  decide ((w.extractLsb' 272 4).toNat ≤ 3) && legalFaultInfo (w.extractLsb' 272 4) (w.extractLsb' 0 272)

/-- The invariant of every run: each reply given is a word AKC may answer with. -/
def RepliesLegal (s : State) : Prop := ∀ r ∈ s.responses, legalReplyWord r.word = true

end Sys2Proof.Machine
end

