-- ==== Sys2Proof/Certificates/Slice0/Obligations.lean ====
section
/-! DEFINITION. The statements for the provers. Bit positions of request and response words, operation codes and status
numbers are the spec's own decisions (92_eei_decisions.md D2 to D4, D8, D10); where a statement also rests on a decision
or a derivation of the spec about BEHAVIOUR, its docstring names it. `Answers i s w` says that the operation completes,
that its one reply is `w`, and that nothing else of the state changes. Where a statement takes the first of the waiting
requests of all ports, that order is the model's order of service (notes/assumptions/2.md, DESIGN CHOICE); R261 orders
the requests of one port only. The record of replies, `responses`, is the model's own (the same entry). -/

open Sys2Proof Sys2Proof.Machine

/-! ### Encoding -/

/-- The request words 95_test_vectors.md prints, one of each operation, decode to the operations they stand for. -/
def Obligations.PrintedRequestWordsDecode : Prop :=
  decode 0x10000000200000001000000ff0000000000000000#164 = .ok (.encsrc ⟨2#32, 1#32, 0xff#32, 0#32, 0#32⟩) ∧
  decode 0x208810000ff000000000000000000000000000000#164 =
    .ok (.decsrc ⟨8#8, 0x810000ff000000000000000000000000#128⟩) ∧
  decode 0x30000008000000001000000020000000300000004#164 = .ok (.enctrg ⟨0x80#32, 1#32, 2#32, 3#32, 4#32⟩) ∧
  decode 0x40880000001020300040000000000000000000000#164 =
    .ok (.dectrg ⟨8#8, 0x80000001020300040000000000000000#128⟩) ∧
  decode 0x5080a0000000000000f0000000000000000000000#164 =
    .ok (.hex64 ⟨8#8, 0x0a0000000000000f0000000000000000#128⟩) ∧
  decode 0x60000000200000001000000ff0000000100000100#164 =
    .ok (.fmtsrc ⟨2#32, 1#32, 0xff#32, 1#32, 0x100#32⟩) ∧
  decode 0x7000000c00000beef000000100000002000003040#164 =
    .ok (.fmttrg ⟨0xc0#32, 0xbeef#32, 0x10#32, 0x20#32, 0x3040#32⟩) ∧
  decode 0x810810000ff00010100c000beef10203040000000#164 =
    .ok (.decbkt ⟨16#8, 0x810000ff00010100c000beef10203040#128⟩) ∧
  decode 0x92000200000000000000000000000000000000000#164 = .ok (.enumfwd 1#3 1#16) ∧
  decode 0xa2000001800000000000000000000000000000000#164 = .ok (.enumrev 1#3 0xc0#32)

/-- Decoding an encoded well-formed instruction gives it back, every operand at every value (R90 to R101). -/
def Obligations.DecodeOfEncodeIsIdentity : Prop :=
  ∀ i : Instr, i.wf = true → decode (encode i) = .ok i

/-- What a word decodes to is well formed, has the word's operation code, and encodes to that word with the bits its
format marks "ignored" cleared: 24 for a buffer request, 141 for ENUMFWD, 125 for ENUMREV, none for the others
(R94, R95, R97, R100). So every other bit of the word is read. -/
def Obligations.EncodeOfDecodeClearsIgnoredBits : Prop :=
  ∀ (w : ReqWord) (i : Instr), decode w = .ok i →
    i.wf = true ∧ i.opcode.code = w.extractLsb' 160 4 ∧
    encode i = (w >>> i.opcode.ignoredBits) <<< i.opcode.ignoredBits

/-- Every 164-bit word is an operation or one of the two causes of IllegalOp: a reserved operation code (0x0, 0xB to
0xF), or a lookup whose table selector is 5, 6 or 7 (R93, R101, R115 steps 1 to 3; decision D18). -/
def Obligations.EveryWordIsOperationOrIllegal : Prop :=
  ∀ w : ReqWord,
    let op := w.extractLsb' 160 4
    let table := w.extractLsb' 157 3
    (op.toNat = 0 ∨ 11 ≤ op.toNat → decode w = .error (.reservedOp op)) ∧
    ((op.toNat = 9 ∨ op.toNat = 10) → 5 ≤ table.toNat → decode w = .error (.reservedTable op table)) ∧
    (1 ≤ op.toNat → op.toNat ≤ 10 → (9 ≤ op.toNat → table.toNat ≤ 4) →
      ∃ i, decode w = .ok i ∧ i.opcode.code = op ∧ i.wf = true)

/-- Bits marked "ignored" never influence the response, and of a word with a reserved operation code the whole payload
is ignored (R93, R102, U7; decision D18). The second part of each clause says that there is a response. -/
def Obligations.IgnoredBitsNeverInfluence : Prop :=
  (∀ (cfg : Cfg) (c : Opcode) (w w' : ReqWord), w.extractLsb' 160 4 = c.code →
    w >>> c.ignoredBits = w' >>> c.ignoredBits →
    akc cfg w = akc cfg w' ∧ (akc cfg w).isSome = true) ∧
  (∀ (cfg : Cfg) (w w' : ReqWord), w.extractLsb' 160 4 = w'.extractLsb' 160 4 →
    ((w.extractLsb' 160 4).toNat = 0 ∨ 11 ≤ (w.extractLsb' 160 4).toNat) →
    akc cfg w = akc cfg w' ∧ (akc cfg w).isSome = true)

/-- The lanes at or beyond the required length never influence a response, and on a wrong length no lane does
(20_memory.md R76; decision D8): the answer is the same whatever they hold. -/
def Obligations.UnexaminedLanesNeverInfluence : Prop :=
  ∀ (len : Byte) (lanes lanes' : BitVec 128) (s : State),
    ((len = 8#8 → lanes.extractLsb' 64 64 = lanes'.extractLsb' 64 64) →
      (∃ w, Answers (.decsrc ⟨len, lanes⟩) s w ∧ Answers (.decsrc ⟨len, lanes'⟩) s w) ∧
      (∃ w, Answers (.dectrg ⟨len, lanes⟩) s w ∧ Answers (.dectrg ⟨len, lanes'⟩) s w) ∧
      (∃ w, Answers (.hex64 ⟨len, lanes⟩) s w ∧ Answers (.hex64 ⟨len, lanes'⟩) s w)) ∧
    (len ≠ 16#8 → ∃ w, Answers (.decbkt ⟨len, lanes⟩) s w ∧ Answers (.decbkt ⟨len, lanes'⟩) s w)

/-! ### The step, the ports and reset -/

/-- A step takes the first waiting request and, where its word decodes to an operation, runs that operation with the
request's port being served (R20; R115 decisions D12, D18). That the requests of all ports stand in one list, of which a
step takes the first, is the model's choice (notes/assumptions/2.md, DESIGN CHOICE): R261 (decision D22) orders the
requests of one port and leaves the order across ports open. -/
def Obligations.StepRunsDecodedInstruction : Prop :=
  ∀ (s : State) (r : Request) (rest : List Request) (i : Instr),
    s.resetAsserted = false → s.requests = r :: rest → decode r.word = .ok i →
    step s = exec i { s with requests := rest, serving := r.port }

/-- A request with a reserved operation code, or a lookup with a reserved table, is answered with ILLEGAL_OP, which
records the operation code and nothing else (R93, R101, R114, R232; decisions D10, D11, D18). The request is
the first in the model's order of service (notes/assumptions/2.md, DESIGN CHOICE). -/
def Obligations.ReservedRequestsAnswerIllegalOp : Prop :=
  ∀ (s : State) (r : Request) (rest : List Request),
    s.resetAsserted = false → s.requests = r :: rest →
    ((r.word.extractLsb' 160 4).toNat = 0 ∨ 11 ≤ (r.word.extractLsb' 160 4).toNat ∨
      (9 ≤ (r.word.extractLsb' 160 4).toNat ∧ 5 ≤ (r.word.extractLsb' 157 3).toNat)) →
    step s = .next { s with
      requests := rest
      serving := r.port
      responses := s.responses ++ [⟨r.port, 3#4 ++ r.word.extractLsb' 160 4 ++ 0#268⟩] }

/-- AKC takes no step while reset is asserted (R272, U9: stuck) and none without a request (R20, R38). -/
def Obligations.NoStepInResetOrWithoutRequest : Prop :=
  ∀ s : State,
    (s.resetAsserted = true → step s = .fault .resetAsserted) ∧
    (s.resetAsserted = false → s.requests = [] → step s = .fault .noRequest)

/-- Out of reset, every step with a request waiting gives exactly one reply, on that request's port, and the reply is
`AKC(REQ, CFG)`: a function of the request word and the configuration only, whatever was answered before, whatever
else waits and whoever asks. Every request word has its response (R21 decision D1; R262, derived). The request is the first
in the model's order of service (notes/assumptions/2.md, DESIGN CHOICE). -/
def Obligations.ReplyIsFunctionOfRequestAndCfg : Prop :=
  ∀ (s : State) (r : Request) (rest : List Request),
    s.resetAsserted = false → s.requests = r :: rest →
    ∃ w, akc s.cfg r.word = some w ∧
      step s = .next { s with
        requests := rest
        serving := r.port
        responses := s.responses ++ [⟨r.port, w⟩] }

/-- A fault, or any other answer, leaves nothing behind: the request after it gets the reply it would have got had the
first never been sent; and the same word sent twice gets the same response word twice (60_exceptions.md R240,
20_memory.md R73). Which request is the next is the model's order of service (notes/assumptions/2.md, DESIGN CHOICE). -/
def Obligations.NothingIsLeftBehind : Prop :=
  ∀ (s : State) (r₀ r : Request) (rest : List Request),
    s.resetAsserted = false → s.requests = r₀ :: r :: rest →
    ∃ w₀ w t, step s = .next t ∧
      step t = .next { s with
        requests := rest
        serving := r.port
        responses := s.responses ++ [⟨r₀.port, w₀⟩, ⟨r.port, w⟩] } ∧
      step { s with requests := r :: rest } = .next { s with
        requests := rest
        serving := r.port
        responses := s.responses ++ [⟨r.port, w⟩] } ∧
      (r₀.word = r.word → w₀ = w)

/-- Serving all waiting requests answers each of them, in order, each on its own port with `AKC(REQ, CFG)` (R263
decision D27; R261 decision D22). The one order over all ports is the model's order of service
(notes/assumptions/2.md, DESIGN CHOICE). -/
def Obligations.RunAnswersEveryRequestInOrder : Prop :=
  ∀ s : State, s.resetAsserted = false →
    ∃ t, Host.Core.run Sys2Proof.core s.requests.length s = .next t ∧
      t.cfg = s.cfg ∧ t.resetAsserted = false ∧ t.requests = [] ∧
      (t.responses.map fun r => (r.port, some r.word)) =
        (s.responses.map fun r => (r.port, some r.word)) ++
          s.requests.map fun r => (r.port, akc s.cfg r.word)

/-- The order in which AKC serves requests of different ports cannot be observed: two machines of one configuration
whose ports hold the same requests, interleaved in any two ways, give each port the same replies, and these are
`AKC(REQ, CFG)` of the port's own requests in their order (20_memory.md R77; R261 decision D22). R77 speaks of overlap
as well; that overlapping service is reduced to interleavings of whole operations is notes/assumptions/11.md (DEDUCED),
and the list of requests in service order is notes/assumptions/2.md (DESIGN CHOICE). -/
def Obligations.ServiceOrderIsInvisible : Prop :=
  ∀ s s' : State, s.resetAsserted = false → s'.resetAsserted = false → s.cfg = s'.cfg →
    (∀ p, s.requestsOn p = s'.requestsOn p) → (∀ p, s.repliesOn p = s'.repliesOn p) →
    ∃ t t', Host.Core.run Sys2Proof.core s.requests.length s = .next t ∧
      Host.Core.run Sys2Proof.core s'.requests.length s' = .next t' ∧
      ∀ p, t.repliesOn p = t'.repliesOn p ∧
        (t.repliesOn p).map some = (s.repliesOn p).map some ++ (s.requestsOn p).map (akc s.cfg)

/-- The configuration never changes: no step writes it, and nothing a host does to the ports or to reset does
(00_scope.md R11). A step also takes exactly one request and gives one reply (R20), the request being the first of the
one list over all ports, which is the model's choice (notes/assumptions/2.md, DESIGN CHOICE); and it leaves the level of
the reset input, which is the model's choice as well (notes/assumptions/5.md, DESIGN CHOICE). -/
def Obligations.ConfigurationNeverChanges : Prop :=
  (∀ s t : State, step s = .next t →
    t.cfg = s.cfg ∧ t.resetAsserted = s.resetAsserted ∧ t.requests = s.requests.tail ∧
      ∃ reply, t.responses = s.responses ++ [reply]) ∧
  (∀ (s : State) (r : Request),
    (s.present r).cfg = s.cfg ∧ s.assertReset.cfg = s.cfg ∧ s.releaseReset.cfg = s.cfg)

/-- Right after reset no request waits, none has been answered, reset is released, and the two tables of the
deployment are legal: injective in code and in name, with codes below 65536 and at most 65535 entries
(R270, R271 decision D19; R41, R275). -/
def Obligations.ResetSetsNothing : Prop :=
  State.reset.resetAsserted = false ∧ State.reset.requests = [] ∧ State.reset.responses = [] ∧
  ∀ T, T = State.reset.cfg.adv ∨ T = State.reset.cfg.pub →
    (T.map Entry.code).Nodup ∧ (T.map Entry.name).Nodup ∧ (∀ e ∈ T, e.code < 65536) ∧ T.length ≤ 65535

/-- While reset is asserted a request is not accepted and AKC takes no step; a request waiting when reset is asserted
is lost; and the first request after reset is answered as any other, by `AKC(REQ, CFG)` (R272 decision D19; R273,
derived in the spec). That reset is a level the host asserts and releases, and that replies already given stay, is the
model's choice (notes/assumptions/5.md, DESIGN CHOICE). -/
def Obligations.ResetLosesRequestsAndNothingElse : Prop :=
  ∀ (s : State) (r : Request),
    step (s.assertReset.present r) = .fault .resetAsserted ∧
    (s.assertReset.present r).requests = [] ∧
    ∃ w, akc s.cfg r.word = some w ∧
      step ((s.assertReset.present r).releaseReset.present r) = .next { s with
        resetAsserted := false
        requests := []
        serving := r.port
        responses := s.responses ++ [⟨r.port, w⟩] }

/-- Every step keeps the invariant: each reply given is a word AKC may answer with, status 0 to 3 and under a fault
status only that fault's information (R104, R114; decisions D10, D11, D26). -/
def Obligations.StepKeepsRepliesLegal : Prop :=
  ∀ s t : State, RepliesLegal s → step s = .next t → RepliesLegal t

/-- The invariant holds right after reset. -/
def Obligations.RepliesLegalAtReset : Prop := RepliesLegal State.reset

/-! ### Source codec -/

/-- Operation code 0x1 with five 32-bit operands is ENCSRC, and it answers OK for every operand combination and in
every state and configuration: the record is the low 32 bits of `(((type << 6) | dimension) << 24) | id`, big-endian,
then the low 16 bits of `advertiser` and of `publisher`, and the rest of the payload is 0. Nothing is validated and no
table consulted (R131, R134). For operands out of range the record rests on the spec's decisions D5 (the first word) and
D6 (the trailing fields cut to 16 bits), and on notes/assumptions/6.md (DEDUCED, unsafe there). -/
def Obligations.EncsrcPacksTheRecord : Prop :=
  (∀ w : ReqWord, w.extractLsb' 160 4 = 1#4 →
    decode w = .ok (.encsrc ⟨w.extractLsb' 128 32, w.extractLsb' 96 32, w.extractLsb' 64 32, w.extractLsb' 32 32,
      w.extractLsb' 0 32⟩)) ∧
  (∀ (f : SrcOperands) (s : State),
    Answers (.encsrc f) s
      (0#4 ++ BitVec.ofNat 32 ((((f.type.toNat <<< 6) ||| f.dimension.toNat) <<< 24) ||| f.id.toNat) ++
        f.advertiser.extractLsb' 0 16 ++ f.publisher.extractLsb' 0 16 ++ 0#208))

/-- The record value of ENCSRC bit by bit, for operands of any value: an over-wide `id` is ORed into `dimension` and
`type`, an over-wide `dimension` into `type`, the rest is cut (R132, derived in the spec from R131 with decisions D5
and D6). -/
def Obligations.EncsrcRecordBits : Prop :=
  ∀ (f : SrcOperands) (s : State), ∃ V : BitVec 64,
    Answers (.encsrc f) s (0#4 ++ V ++ 0#208) ∧
    V.extractLsb' 62 2 = f.type.extractLsb' 0 2 ||| f.dimension.extractLsb' 6 2 ||| f.id.extractLsb' 30 2 ∧
    V.extractLsb' 56 6 = f.dimension.extractLsb' 0 6 ||| f.id.extractLsb' 24 6 ∧
    V.extractLsb' 32 24 = f.id.extractLsb' 0 24 ∧
    V.extractLsb' 16 16 = f.advertiser.extractLsb' 0 16 ∧
    V.extractLsb' 0 16 = f.publisher.extractLsb' 0 16

/-- For an in-range source record the fields do not overlap: the record is their plain concatenation (R133, derived in
the spec). -/
def Obligations.EncsrcInRangeConcatenates : Prop :=
  ∀ (f : SrcOperands) (s : State),
    f.type.toNat < 4 → f.dimension.toNat < 64 → f.id.toNat < 2 ^ 24 → f.advertiser.toNat < 2 ^ 16 →
    f.publisher.toNat < 2 ^ 16 →
    Answers (.encsrc f) s
      (0#4 ++ f.type.extractLsb' 0 2 ++ f.dimension.extractLsb' 0 6 ++ f.id.extractLsb' 0 24 ++
        f.advertiser.extractLsb' 0 16 ++ f.publisher.extractLsb' 0 16 ++ 0#208)

/-- Operation code 0x2 with a length and 16 lanes is DECSRC. With length 8 it answers OK on every record, with the
five fields cut from the big-endian 32-bit word at offset 0 and the 16-bit words at offsets 4 and 6, and consults no
table; with any other length it raises LengthMismatch, which records 8 and the stated length (R138, R139). -/
def Obligations.DecsrcUnpacksTheRecord : Prop :=
  (∀ w : ReqWord, w.extractLsb' 160 4 = 2#4 → decode w = .ok (.decsrc ⟨w.extractLsb' 152 8, w.extractLsb' 24 128⟩)) ∧
  (∀ (len : Byte) (lanes : BitVec 128) (s : State),
    let b : Nat → Byte := fun k => lanes.extractLsb' (120 - 8 * k) 8
    let w0 : BitVec 32 := b 0 ++ b 1 ++ b 2 ++ b 3
    (len = 8#8 → Answers (.decsrc ⟨len, lanes⟩) s
      (0#4 ++ w0.extractLsb' 30 2 ++ w0.extractLsb' 24 6 ++ w0.extractLsb' 0 24 ++ (b 4 ++ b 5) ++ (b 6 ++ b 7) ++
        0#208)) ∧
    (len ≠ 8#8 → Answers (.decsrc ⟨len, lanes⟩) s (1#4 ++ 8#8 ++ len ++ 0#256)))

/-- Round trip, source: decoding the record ENCSRC gives for an in-range record returns its five numbers, whatever
state each operation runs in and whatever lanes 8 to 15 hold (R141). -/
def Obligations.SourceEncodeThenDecode : Prop :=
  ∀ (f : SrcOperands) (s s' : State) (rest : BitVec 64),
    f.type.toNat < 4 → f.dimension.toNat < 64 → f.id.toNat < 2 ^ 24 → f.advertiser.toNat < 2 ^ 16 →
    f.publisher.toNat < 2 ^ 16 →
    ∃ (V : BitVec 64) (type : BitVec 2) (dimension : BitVec 6) (id : BitVec 24) (advertiser publisher : BitVec 16),
      Answers (.encsrc f) s (0#4 ++ V ++ 0#208) ∧
      Answers (.decsrc ⟨8#8, V ++ rest⟩) s'
        (0#4 ++ type ++ dimension ++ id ++ advertiser ++ publisher ++ 0#208) ∧
      type.toNat = f.type.toNat ∧ dimension.toNat = f.dimension.toNat ∧ id.toNat = f.id.toNat ∧
      advertiser.toNat = f.advertiser.toNat ∧ publisher.toNat = f.publisher.toNat

/-- Round trip, source, the other way: encoding the fields DECSRC returns, zero-extended to 32 bits, gives the record
back, for every record (R142, derived in the spec). -/
def Obligations.SourceDecodeThenEncode : Prop :=
  ∀ (B rest : BitVec 64) (s s' : State),
    ∃ (type : BitVec 2) (dimension : BitVec 6) (id : BitVec 24) (advertiser publisher : BitVec 16),
      Answers (.decsrc ⟨8#8, B ++ rest⟩) s
        (0#4 ++ type ++ dimension ++ id ++ advertiser ++ publisher ++ 0#208) ∧
      Answers (.encsrc ⟨type.setWidth 32, dimension.setWidth 32, id.setWidth 32, advertiser.setWidth 32,
        publisher.setWidth 32⟩) s' (0#4 ++ B ++ 0#208)

/-- Of operands out of range, decoding returns the overlapped and cut fields, with status OK (R143, derived in the
spec; decisions D5, D6). -/
def Obligations.SourceOutOfRangeDecodesOverlapped : Prop :=
  ∀ (f : SrcOperands) (s s' : State) (rest : BitVec 64), ∃ V : BitVec 64,
    Answers (.encsrc f) s (0#4 ++ V ++ 0#208) ∧
    Answers (.decsrc ⟨8#8, V ++ rest⟩) s'
      (0#4 ++ (f.type.extractLsb' 0 2 ||| f.dimension.extractLsb' 6 2 ||| f.id.extractLsb' 30 2) ++
        (f.dimension.extractLsb' 0 6 ||| f.id.extractLsb' 24 6) ++ f.id.extractLsb' 0 24 ++
        f.advertiser.extractLsb' 0 16 ++ f.publisher.extractLsb' 0 16 ++ 0#208)

/-! ### Trigger codec -/

/-- Operation code 0x3 with five 32-bit operands is ENCTRG, and it answers OK for every operand combination and in
every state and configuration: the record is the low 32 bits of `(type << 24) | id`, big-endian, then the low 8 bits of
`size` and of `category` and the low 16 bits of `option` (R151, R154; the shared first word and the separate stores are
decisions D7 and D6). -/
def Obligations.EnctrgPacksTheRecord : Prop :=
  (∀ w : ReqWord, w.extractLsb' 160 4 = 3#4 →
    decode w = .ok (.enctrg ⟨w.extractLsb' 128 32, w.extractLsb' 96 32, w.extractLsb' 64 32, w.extractLsb' 32 32,
      w.extractLsb' 0 32⟩)) ∧
  (∀ (f : TrgOperands) (s : State),
    Answers (.enctrg f) s
      (0#4 ++ BitVec.ofNat 32 ((f.type.toNat <<< 24) ||| f.id.toNat) ++
        f.size.extractLsb' 0 8 ++ f.category.extractLsb' 0 8 ++ f.option.extractLsb' 0 16 ++ 0#208))

/-- The record value of ENCTRG bit by bit, for operands of any value (R152, derived in the spec from R151 with decision
D6). -/
def Obligations.EnctrgRecordBits : Prop :=
  ∀ (f : TrgOperands) (s : State), ∃ V : BitVec 64,
    Answers (.enctrg f) s (0#4 ++ V ++ 0#208) ∧
    V.extractLsb' 56 8 = f.type.extractLsb' 0 8 ||| f.id.extractLsb' 24 8 ∧
    V.extractLsb' 32 24 = f.id.extractLsb' 0 24 ∧
    V.extractLsb' 24 8 = f.size.extractLsb' 0 8 ∧
    V.extractLsb' 16 8 = f.category.extractLsb' 0 8 ∧
    V.extractLsb' 0 16 = f.option.extractLsb' 0 16

/-- For an in-range trigger record the record is the plain concatenation of its fields (R153, derived in the spec; it
rests on the source alone). -/
def Obligations.EnctrgInRangeConcatenates : Prop :=
  ∀ (f : TrgOperands) (s : State),
    f.type.toNat < 2 ^ 8 → f.id.toNat < 2 ^ 24 → f.size.toNat < 2 ^ 8 → f.category.toNat < 2 ^ 8 →
    f.option.toNat < 2 ^ 16 →
    Answers (.enctrg f) s
      (0#4 ++ f.type.extractLsb' 0 8 ++ f.id.extractLsb' 0 24 ++ f.size.extractLsb' 0 8 ++
        f.category.extractLsb' 0 8 ++ f.option.extractLsb' 0 16 ++ 0#208)

/-- Both encoders are injective on in-range records, and not on all operands: an over-wide `id` and an over-wide `type`
each give the record of an in-range one (R136, R156, derived in the spec; R135 (c), (g) and R155 (c), (d)). -/
def Obligations.EncodersAreInjectiveInRangeOnly : Prop :=
  (∀ (f g : SrcOperands) (s : State) (w : RespWord), srcInRange f = true → srcInRange g = true →
    Answers (.encsrc f) s w → Answers (.encsrc g) s w → f = g) ∧
  (∀ (f g : TrgOperands) (s : State) (w : RespWord), trgInRange f = true → trgInRange g = true →
    Answers (.enctrg f) s w → Answers (.enctrg g) s w → f = g) ∧
  (∀ s : State,
    (∃ w, Answers (.encsrc ⟨2#32, 0#32, 0x1000000#32, 0#32, 0#32⟩) s w ∧
      Answers (.encsrc ⟨2#32, 1#32, 0#32, 0#32, 0#32⟩) s w) ∧
    (∃ w, Answers (.encsrc ⟨5#32, 0#32, 0#32, 0#32, 0#32⟩) s w ∧
      Answers (.encsrc ⟨1#32, 0#32, 0#32, 0#32, 0#32⟩) s w) ∧
    (∃ w, Answers (.enctrg ⟨0x80#32, 0x1000000#32, 0#32, 0#32, 0#32⟩) s w ∧
      Answers (.enctrg ⟨0x81#32, 0#32, 0#32, 0#32, 0#32⟩) s w) ∧
    (∃ w, Answers (.enctrg ⟨0x180#32, 0#32, 0#32, 0#32, 0#32⟩) s w ∧
      Answers (.enctrg ⟨0x80#32, 0#32, 0#32, 0#32, 0#32⟩) s w))

/-- Operation code 0x4 with a length and 16 lanes is DECTRG. With length 8 it answers OK on every record, with the five
fields at their offsets, and consults no table; with any other length it raises LengthMismatch, which records 8 and the
stated length (R158). -/
def Obligations.DectrgUnpacksTheRecord : Prop :=
  (∀ w : ReqWord, w.extractLsb' 160 4 = 4#4 → decode w = .ok (.dectrg ⟨w.extractLsb' 152 8, w.extractLsb' 24 128⟩)) ∧
  (∀ (len : Byte) (lanes : BitVec 128) (s : State),
    let b : Nat → Byte := fun k => lanes.extractLsb' (120 - 8 * k) 8
    let w0 : BitVec 32 := b 0 ++ b 1 ++ b 2 ++ b 3
    (len = 8#8 → Answers (.dectrg ⟨len, lanes⟩) s
      (0#4 ++ w0.extractLsb' 24 8 ++ w0.extractLsb' 0 24 ++ b 4 ++ b 5 ++ (b 6 ++ b 7) ++ 0#208)) ∧
    (len ≠ 8#8 → Answers (.dectrg ⟨len, lanes⟩) s (1#4 ++ 8#8 ++ len ++ 0#256)))

/-- Round trip, trigger: decoding the record ENCTRG gives for an in-range record returns its five numbers (R161). -/
def Obligations.TriggerEncodeThenDecode : Prop :=
  ∀ (f : TrgOperands) (s s' : State) (rest : BitVec 64),
    f.type.toNat < 2 ^ 8 → f.id.toNat < 2 ^ 24 → f.size.toNat < 2 ^ 8 → f.category.toNat < 2 ^ 8 →
    f.option.toNat < 2 ^ 16 →
    ∃ (V : BitVec 64) (type : BitVec 8) (id : BitVec 24) (size category : BitVec 8) (option : BitVec 16),
      Answers (.enctrg f) s (0#4 ++ V ++ 0#208) ∧
      Answers (.dectrg ⟨8#8, V ++ rest⟩) s' (0#4 ++ type ++ id ++ size ++ category ++ option ++ 0#208) ∧
      type.toNat = f.type.toNat ∧ id.toNat = f.id.toNat ∧ size.toNat = f.size.toNat ∧
      category.toNat = f.category.toNat ∧ option.toNat = f.option.toNat

/-- Round trip, trigger, the other way, and what operands out of range decode to (R162, R163, derived in the spec;
decisions D6, D7). -/
def Obligations.TriggerDecodeThenEncodeAndOverlap : Prop :=
  (∀ (B rest : BitVec 64) (s s' : State),
    ∃ (type : BitVec 8) (id : BitVec 24) (size category : BitVec 8) (option : BitVec 16),
      Answers (.dectrg ⟨8#8, B ++ rest⟩) s (0#4 ++ type ++ id ++ size ++ category ++ option ++ 0#208) ∧
      Answers (.enctrg ⟨type.setWidth 32, id.setWidth 32, size.setWidth 32, category.setWidth 32,
        option.setWidth 32⟩) s' (0#4 ++ B ++ 0#208)) ∧
  (∀ (f : TrgOperands) (s s' : State) (rest : BitVec 64), ∃ V : BitVec 64,
    Answers (.enctrg f) s (0#4 ++ V ++ 0#208) ∧
    Answers (.dectrg ⟨8#8, V ++ rest⟩) s'
      (0#4 ++ (f.type.extractLsb' 0 8 ||| f.id.extractLsb' 24 8) ++ f.id.extractLsb' 0 24 ++
        f.size.extractLsb' 0 8 ++ f.category.extractLsb' 0 8 ++ f.option.extractLsb' 0 16 ++ 0#208))

/-- Decoding is a re-labelling of wires: the payload of a successful DECSRC and of a successful DECTRG is the 64 input
bits, so on the same bytes they return the same `id` (bits 55 to 32) and the same last 16 bits (R140, R159, R160,
derived in the spec). -/
def Obligations.DecodersReturnTheirInputBits : Prop :=
  ∀ (B rest : BitVec 64) (s : State),
    Answers (.decsrc ⟨8#8, B ++ rest⟩) s (0#4 ++ B ++ 0#208) ∧
    Answers (.dectrg ⟨8#8, B ++ rest⟩) s (0#4 ++ B ++ 0#208)

/-! ### Formatters -/

/-- Operation code 0x5 with a length and 16 lanes is HEX64. With length 8 it answers OK with 16 characters: of byte k,
characters 2k and 2k+1 are the lower-case ASCII digits of its high and low nibble; the rest of the payload is 0. With another length it raises LengthMismatch (R172
decisions D4, D9; R108; the byte values of the digits are R171's third row, general knowledge G1). -/
def Obligations.Hex64PrintsTwoDigitsPerByte : Prop :=
  (∀ w : ReqWord, w.extractLsb' 160 4 = 5#4 → decode w = .ok (.hex64 ⟨w.extractLsb' 152 8, w.extractLsb' 24 128⟩)) ∧
  ∀ (len : Byte) (lanes : BitVec 128) (s : State),
    (len = 8#8 → ∃ w, Answers (.hex64 ⟨len, lanes⟩) s w ∧
      w.extractLsb' 272 4 = 0#4 ∧ w.extractLsb' 0 144 = 0#144 ∧
      ∀ k < 8,
        some (charAt w (2 * k)) = hexDigits[(lanes.extractLsb' (124 - 8 * k) 4).toNat]? ∧
        some (charAt w (2 * k + 1)) = hexDigits[(lanes.extractLsb' (120 - 8 * k) 4).toNat]?) ∧
    (len ≠ 8#8 → Answers (.hex64 ⟨len, lanes⟩) s (1#4 ++ 8#8 ++ len ++ 0#256))

/-- The 16 digits of HEX64, read as a hexadecimal numeral, spell the big-endian value of the 8 bytes, so two records
with the same digits are the same record (R173, derived in the spec). -/
def Obligations.Hex64SpellsTheRecord : Prop :=
  (∀ (B rest : BitVec 64) (s : State), ∃ w, Answers (.hex64 ⟨8#8, B ++ rest⟩) s w ∧
    ((List.range 16).map fun j => hexDigits.idxOf (charAt w j) <<< (4 * (15 - j))).sum = B.toNat) ∧
  (∀ (B B' rest rest' : BitVec 64) (s : State) (w : RespWord),
    Answers (.hex64 ⟨8#8, B ++ rest⟩) s w → Answers (.hex64 ⟨8#8, B' ++ rest'⟩) s w → B = B')

/-- Operation code 0x6 with the operands of ENCSRC is FMTSRC, and for every operand combination it answers OK with
`0x`, then the 16 characters HEX64 gives for the record ENCSRC gives, then sixteen `0` (R176). -/
def Obligations.FmtsrcPrintsRecordInUpperHalf : Prop :=
  (∀ w : ReqWord, w.extractLsb' 160 4 = 6#4 →
    decode w = .ok (.fmtsrc ⟨w.extractLsb' 128 32, w.extractLsb' 96 32, w.extractLsb' 64 32, w.extractLsb' 32 32,
      w.extractLsb' 0 32⟩)) ∧
  (∀ (f : SrcOperands) (rest : BitVec 64) (s : State), ∃ (V : BitVec 64) (H : BitVec 128),
    Answers (.encsrc f) s (0#4 ++ V ++ 0#208) ∧
    Answers (.hex64 ⟨8#8, V ++ rest⟩) s (0#4 ++ H ++ 0#144) ∧
    Answers (.fmtsrc f) s (0#4 ++ 0x3078#16 ++ H ++ 0x30303030303030303030303030303030#128))

/-- Operation code 0x7 with the operands of ENCTRG is FMTTRG, and for every operand combination it answers OK with
`0x`, then sixteen `0`, then the 16 characters HEX64 gives for the record ENCTRG gives (R180). -/
def Obligations.FmttrgPrintsRecordInLowerHalf : Prop :=
  (∀ w : ReqWord, w.extractLsb' 160 4 = 7#4 →
    decode w = .ok (.fmttrg ⟨w.extractLsb' 128 32, w.extractLsb' 96 32, w.extractLsb' 64 32, w.extractLsb' 32 32,
      w.extractLsb' 0 32⟩)) ∧
  (∀ (f : TrgOperands) (rest : BitVec 64) (s : State), ∃ (V : BitVec 64) (H : BitVec 128),
    Answers (.enctrg f) s (0#4 ++ V ++ 0#208) ∧
    Answers (.hex64 ⟨8#8, V ++ rest⟩) s (0#4 ++ H ++ 0#144) ∧
    Answers (.fmttrg f) s (0#4 ++ 0x3078#16 ++ 0x30303030303030303030303030303030#128 ++ H))

/-- Every key piece, whatever the operands, is `0x` and then 32 lower-case hexadecimal digits, most significant first:
character 2 + j is the digit of bits 127-4j to 124-4j of the 128-bit value, which is the record with 64 zero bits below
it (source) or above it (trigger) (42_keypiece_format.md R170, 20_memory.md R63). -/
def Obligations.KeyPiecesSpellFixedWidthValues : Prop :=
  (∀ (f : SrcOperands) (s : State), ∃ (V : BitVec 64) (w : RespWord),
    Answers (.encsrc f) s (0#4 ++ V ++ 0#208) ∧ Answers (.fmtsrc f) s w ∧
    w.extractLsb' 272 4 = 0#4 ∧ charAt w 0 = 0x30#8 ∧ charAt w 1 = 0x78#8 ∧
    ∀ j < 32, some (charAt w (2 + j)) = hexDigits[((V ++ 0#64).extractLsb' (124 - 4 * j) 4).toNat]?) ∧
  (∀ (g : TrgOperands) (s : State), ∃ (V : BitVec 64) (w : RespWord),
    Answers (.enctrg g) s (0#4 ++ V ++ 0#208) ∧ Answers (.fmttrg g) s w ∧
    w.extractLsb' 272 4 = 0#4 ∧ charAt w 0 = 0x30#8 ∧ charAt w 1 = 0x78#8 ∧
    ∀ j < 32, some (charAt w (2 + j)) = hexDigits[((0#64 ++ V).extractLsb' (124 - 4 * j) 4).toNat]?)

/-- Half isolation: for all operands, the values a source and a trigger key piece spell, joined by OR, by sum or by
XOR, are the source record above the trigger record, exactly (R184). The values are read from the response words by
`kpValue` (R174, derived in the spec; notes/assumptions/12.md, DEDUCED), so the character codes are those of
notes/assumptions/7.md (PRESUMED, G1). -/
def Obligations.KeyPieceHalvesAreIsolated : Prop :=
  ∀ (f : SrcOperands) (g : TrgOperands) (s : State),
    ∃ (Vs Vt : BitVec 64) (ws wt : RespWord) (a b : BitVec 128),
      Answers (.encsrc f) s (0#4 ++ Vs ++ 0#208) ∧ Answers (.enctrg g) s (0#4 ++ Vt ++ 0#208) ∧
      Answers (.fmtsrc f) s ws ∧ Answers (.fmttrg g) s wt ∧
      kpValue (respString 34 ws) = some a ∧ kpValue (respString 34 wt) = some b ∧
      a ||| b = Vs ++ Vt ∧ a + b = Vs ++ Vt ∧ a ^^^ b = Vs ++ Vt

/-- The 16-byte forms: a source key piece is the source record's bytes and then eight zeros, a trigger key piece eight
zeros and then the trigger record's bytes, and the combined value is the source record's bytes and then the trigger
record's: a bucket (R174, R185, derived in the spec; notes/assumptions/7.md, PRESUMED, and 12.md, DEDUCED). -/
def Obligations.CombinedKeyIsABucket : Prop :=
  ∀ (f : SrcOperands) (g : TrgOperands) (s : State),
    ∃ (Vs Vt : BitVec 64) (ws wt : RespWord) (a b : BitVec 128),
      Answers (.encsrc f) s (0#4 ++ Vs ++ 0#208) ∧ Answers (.enctrg g) s (0#4 ++ Vt ++ 0#208) ∧
      Answers (.fmtsrc f) s ws ∧ Answers (.fmttrg g) s wt ∧
      kpValue (respString 34 ws) = some a ∧ kpValue (respString 34 wt) = some b ∧
      kpBytes (respString 34 ws) = some (bytesBE Vs 8 ++ List.replicate 8 0#8) ∧
      kpBytes (respString 34 wt) = some (List.replicate 8 0#8 ++ bytesBE Vt 8) ∧
      bytesBE (a ||| b) 16 = bytesBE Vs 8 ++ bytesBE Vt 8

/-! ### Bucket decoder -/

/-- Operation code 0x8 with a length and 16 lanes is DECBKT. With length 16 it splits at offset 8, source half first,
and delivers the numeric fields of both halves (the 128 lane bits) with five name results: source type, dimension,
advertiser, publisher and trigger type, each looked up in its own table. The status is OK exactly when all five are
valid, and LOOKUP_FAIL otherwise. With another length it raises LengthMismatch, which records 16 and the stated length
(R191, R192, R193). The fields and name results under LOOKUP_FAIL rest on decision D13, and the numeric fields beside
the names on decision D15. -/
def Obligations.DecbktSplitsAndLooksUpNames : Prop :=
  (∀ w : ReqWord, w.extractLsb' 160 4 = 8#4 → decode w = .ok (.decbkt ⟨w.extractLsb' 152 8, w.extractLsb' 24 128⟩)) ∧
  (∀ (len : Byte) (S T : BitVec 64) (s : State),
    (len = 16#8 → ∃ (n0 n1 n2 n3 n4 : BitVec 17) (status : BitVec 4),
      Answers (.decbkt ⟨len, S ++ T⟩) s (status ++ S ++ T ++ n0 ++ n1 ++ n2 ++ n3 ++ n4 ++ 0#59) ∧
      IsNameResult sourceTypeTable (S.extractLsb' 62 2).toNat n0 ∧
      IsNameResult dimensionTable (S.extractLsb' 56 6).toNat n1 ∧
      IsNameResult s.cfg.adv (S.extractLsb' 16 16).toNat n2 ∧
      IsNameResult s.cfg.pub (S.extractLsb' 0 16).toNat n3 ∧
      IsNameResult triggerTypeTable (T.extractLsb' 56 8).toNat n4 ∧
      ((n0.msb && n1.msb && n2.msb && n3.msb && n4.msb) = true → status = 0#4) ∧
      ((n0.msb && n1.msb && n2.msb && n3.msb && n4.msb) = false → status = 2#4)) ∧
    (len ≠ 16#8 → Answers (.decbkt ⟨len, S ++ T⟩) s (1#4 ++ 16#8 ++ len ++ 0#256)))

/-- DECBKT is a composition: on 16 bytes it gives the fields DECSRC gives for the first eight and DECTRG for the last
eight, and the name results ENUMREV gives for the five enumerated fields, zero-extended, in the five tables. Its status
is OK exactly when each of the five lookups answers OK, and else LOOKUP_FAIL (R119; R195 decision D13; the
numeric fields beside the names, decision D15). -/
def Obligations.DecbktIsTwoDecodersAndFiveLookups : Prop :=
  ∀ (S T rest rest' : BitVec 64) (s : State),
    ∃ (F G : BitVec 64) (n0 n1 n2 n3 n4 : BitVec 17) (st0 st1 st2 st3 st4 status : BitVec 4),
      Answers (.decsrc ⟨8#8, S ++ rest⟩) s (0#4 ++ F ++ 0#208) ∧
      Answers (.dectrg ⟨8#8, T ++ rest'⟩) s (0#4 ++ G ++ 0#208) ∧
      Answers (.enumrev 0#3 ((F.extractLsb' 62 2).setWidth 32)) s (st0 ++ n0 ++ 0#255) ∧
      Answers (.enumrev 2#3 ((F.extractLsb' 56 6).setWidth 32)) s (st1 ++ n1 ++ 0#255) ∧
      Answers (.enumrev 3#3 ((F.extractLsb' 16 16).setWidth 32)) s (st2 ++ n2 ++ 0#255) ∧
      Answers (.enumrev 4#3 ((F.extractLsb' 0 16).setWidth 32)) s (st3 ++ n3 ++ 0#255) ∧
      Answers (.enumrev 1#3 ((G.extractLsb' 56 8).setWidth 32)) s (st4 ++ n4 ++ 0#255) ∧
      Answers (.decbkt ⟨16#8, S ++ T⟩) s (status ++ F ++ G ++ n0 ++ n1 ++ n2 ++ n3 ++ n4 ++ 0#59) ∧
      (status = 0#4 ↔ st0 = 0#4 ∧ st1 = 0#4 ∧ st2 = 0#4 ∧ st3 = 0#4 ∧ st4 = 0#4) ∧
      (status ≠ 0#4 → status = 2#4)

/-- The DecodedBucket a host recovers from a DECBKT response names each enumerated field by the entry of its table that
has the field's code, and by "unrecognized" (none) where there is no such entry: never by a default name (R194
decision D13; R196 decision D15). -/
def Obligations.DecodedBucketNamesEveryEnumeratedField : Prop :=
  ∀ (S T : BitVec 64) (s : State),
    let name : Table → Nat → Option String := fun table c => (table.find? fun e => e.code == c).map Entry.name
    ∃ w, Answers (.decbkt ⟨16#8, S ++ T⟩) s w ∧
      decodedBucket s.cfg w =
        ⟨⟨name sourceTypeTable (S.extractLsb' 62 2).toNat, name dimensionTable (S.extractLsb' 56 6).toNat,
          S.extractLsb' 32 24, name s.cfg.adv (S.extractLsb' 16 16).toNat,
          name s.cfg.pub (S.extractLsb' 0 16).toNat⟩,
         ⟨name triggerTypeTable (T.extractLsb' 56 8).toNat, T.extractLsb' 32 24, T.extractLsb' 24 8,
          T.extractLsb' 16 8, T.extractLsb' 0 16⟩⟩

/-- A key emitted as two key pieces and joined by OR decodes, as a 16-byte big-endian bucket, to its two records: for
in-range operands DECBKT returns the ten numbers; and where each enumerated field was produced by ENUMFWD, under the
same configuration, the status is OK and each name result is the name identifier it was produced from (R185, R198,
derived in the spec; decisions D13, D15, D25). The values of the key pieces are read by `kpValue`
(notes/assumptions/12.md, DEDUCED) with the character codes of notes/assumptions/7.md (PRESUMED, G1). -/
def Obligations.EmittedKeyDecodesToItsRecords : Prop :=
  ∀ (f : SrcOperands) (g : TrgOperands) (s s' : State), srcInRange f = true → trgInRange g = true →
    s'.cfg = s.cfg →
    ∃ (ws wt : RespWord) (a b : BitVec 128) (tail : BitVec 144) (status : BitVec 4),
      Answers (.fmtsrc f) s ws ∧ Answers (.fmttrg g) s wt ∧
      kpValue (respString 34 ws) = some a ∧ kpValue (respString 34 wt) = some b ∧
      Answers (.decbkt ⟨16#8, a ||| b⟩) s'
        (status ++ f.type.extractLsb' 0 2 ++ f.dimension.extractLsb' 0 6 ++ f.id.extractLsb' 0 24 ++
          f.advertiser.extractLsb' 0 16 ++ f.publisher.extractLsb' 0 16 ++
          g.type.extractLsb' 0 8 ++ g.id.extractLsb' 0 24 ++ g.size.extractLsb' 0 8 ++
          g.category.extractLsb' 0 8 ++ g.option.extractLsb' 0 16 ++ tail) ∧
      ∀ i0 i1 i2 i3 i4 : NameId,
        Answers (.enumfwd 0#3 i0) s (0#4 ++ 1#1 ++ f.type ++ 0#239) →
        Answers (.enumfwd 2#3 i1) s (0#4 ++ 1#1 ++ f.dimension ++ 0#239) →
        Answers (.enumfwd 3#3 i2) s (0#4 ++ 1#1 ++ f.advertiser ++ 0#239) →
        Answers (.enumfwd 4#3 i3) s (0#4 ++ 1#1 ++ f.publisher ++ 0#239) →
        Answers (.enumfwd 1#3 i4) s (0#4 ++ 1#1 ++ g.type ++ 0#239) →
        status = 0#4 ∧
          tail = 1#1 ++ i0 ++ (1#1 ++ i1) ++ (1#1 ++ i2) ++ (1#1 ++ i3) ++ (1#1 ++ i4) ++ 0#59

/-! ### Enumeration lookup -/

/-- The three tables the spec prints hold the entries it prints, in its order, and each is legal for its field
(10_state.md R40, R43, R45, R41); the selector numbers the five tables 0 to 4 and 5 to 7 name none (R39, R101). -/
def Obligations.TablesAreAsPrinted : Prop :=
  ∀ cfg : Cfg,
    selectTable cfg 0#3 = some [⟨"unknown", 0⟩, ⟨"click", 2⟩, ⟨"view", 3⟩] ∧
    selectTable cfg 1#3 = some [⟨"quantity", 128⟩, ⟨"gross", 192⟩] ∧
    selectTable cfg 2#3 = some [⟨"quantity", 0⟩, ⟨"gross", 1⟩] ∧
    selectTable cfg 3#3 = some cfg.adv ∧ selectTable cfg 4#3 = some cfg.pub ∧
    selectTable cfg 5#3 = none ∧ selectTable cfg 6#3 = none ∧ selectTable cfg 7#3 = none ∧
    Table.legal 4 sourceTypeTable = true ∧ Table.legal 256 triggerTypeTable = true ∧
    Table.legal 64 dimensionTable = true

/-- Operation code 0x9 with a table below 5 and a name identifier is ENUMFWD. It answers with the code of the entry at
position `name_id` of the selected table, or, where there is none, with LOOKUP_FAIL and code 0xFFFFFFFF; a reserved table is IllegalOp (R213, R215; decisions D14, D25). -/
def Obligations.EnumfwdReadsTheEntry : Prop :=
  (∀ w : ReqWord, w.extractLsb' 160 4 = 9#4 → (w.extractLsb' 157 3).toNat ≤ 4 →
    decode w = .ok (.enumfwd (w.extractLsb' 157 3) (w.extractLsb' 141 16))) ∧
  ∀ (table : BitVec 3) (nameId : NameId) (s : State),
    (∀ T, selectTable s.cfg table = some T →
      (∀ e, T[nameId.toNat]? = some e →
        Answers (.enumfwd table nameId) s (0#4 ++ 1#1 ++ BitVec.ofNat 32 e.code ++ 0#239) ∧ e.code < 2 ^ 32) ∧
      (T.length ≤ nameId.toNat →
        Answers (.enumfwd table nameId) s (2#4 ++ 0#1 ++ 0xFFFFFFFF#32 ++ 0#239)) ∧
      (nameId = 0xFFFF#16 → T.length ≤ nameId.toNat)) ∧
    (5 ≤ table.toNat → Answers (.enumfwd table nameId) s (3#4 ++ 9#4 ++ 0#268))

/-- Operation code 0xA with a table below 5 and a 32-bit code is ENUMREV. It answers with the position of the entry of
the selected table that has that code, compared whole, or, where there is none, with LOOKUP_FAIL and identifier
0xFFFF; a reserved table is IllegalOp (R214, R216). -/
def Obligations.EnumrevFindsTheEntry : Prop :=
  (∀ w : ReqWord, w.extractLsb' 160 4 = 10#4 → (w.extractLsb' 157 3).toNat ≤ 4 →
    decode w = .ok (.enumrev (w.extractLsb' 157 3) (w.extractLsb' 125 32))) ∧
  (∀ (table : BitVec 3) (code : Operand) (s : State),
    (∀ T, selectTable s.cfg table = some T →
      (∀ i e, T[i]? = some e → e.code = code.toNat →
        Answers (.enumrev table code) s (0#4 ++ 1#1 ++ BitVec.ofNat 16 i ++ 0#255) ∧ i < 65535) ∧
      ((∀ e ∈ T, e.code ≠ code.toNat) →
        Answers (.enumrev table code) s (2#4 ++ 0#1 ++ 0xFFFF#16 ++ 0#255))) ∧
    (5 ≤ table.toNat → Answers (.enumrev table code) s (3#4 ++ 10#4 ++ 0#268)))

/-- The two lookups are inverse to each other: ENUMFWD of a name identifier answers a code exactly when ENUMREV of that
code, in the same table and configuration, answers that identifier (R218, R219, derived in the spec). -/
def Obligations.LookupsAreMutuallyInverse : Prop :=
  ∀ (table : BitVec 3) (nameId : NameId) (code : Operand) (s s' : State), s'.cfg = s.cfg →
    (Answers (.enumfwd table nameId) s (0#4 ++ 1#1 ++ code ++ 0#239) ↔
      Answers (.enumrev table code) s' (0#4 ++ 1#1 ++ nameId ++ 0#255))

/-- The complete reverse lookup in the three printed tables: source types 0, 2, 3, trigger types 0x80 and 0xC0, and
dimensions 0 and 1 are found, and every other 32-bit code fails, so no lookup has a default name (R220, derived in the
spec; R221). -/
def Obligations.PrintedTablesHaveNoDefault : Prop :=
  ∀ (code : Operand) (s : State),
    let found : NameId → RespWord := fun i => 0#4 ++ 1#1 ++ i ++ 0#255
    let failed : RespWord := 2#4 ++ 0#1 ++ 0xFFFF#16 ++ 0#255
    Answers (.enumrev 0#3 code) s
      (if code = 0#32 then found 0#16 else if code = 2#32 then found 1#16 else if code = 3#32 then found 2#16
        else failed) ∧
    Answers (.enumrev 1#3 code) s
      (if code = 0x80#32 then found 0#16 else if code = 0xC0#32 then found 1#16 else failed) ∧
    Answers (.enumrev 2#3 code) s
      (if code = 0#32 then found 0#16 else if code = 1#32 then found 1#16 else failed)

/-- On every legal table the two procedures for a reverse lookup, a scan and a precomputed inverse map, give the same
answer for every code, so the choice is invisible (10_state.md R49). -/
def Obligations.ScanAndInverseMapAgree : Prop :=
  ∀ (bound : Nat) (T : Table) (c : Nat), Table.legal bound T = true → rev T c = revByMap T c

/-! ### Whole-machine rules -/

/-- A buffer request that states the wrong length is rejected before any data byte is examined: the response is a
function of the operation and the stated length alone (R233 decisions D9, D10, D11). -/
def Obligations.WrongLengthIsRejectedUnread : Prop :=
  ∀ (b : BufOperands) (s : State),
    (b.len ≠ 8#8 →
      Answers (.decsrc b) s (1#4 ++ 8#8 ++ b.len ++ 0#256) ∧ Answers (.dectrg b) s (1#4 ++ 8#8 ++ b.len ++ 0#256) ∧
      Answers (.hex64 b) s (1#4 ++ 8#8 ++ b.len ++ 0#256)) ∧
    (b.len ≠ 16#8 → Answers (.decbkt b) s (1#4 ++ 16#8 ++ b.len ++ 0#256))

/-- Which request can get which status (R104, R235, R236, R238, derived in the spec): encoders and formatters always
OK; the record decoders and HEX64 OK or, exactly on a wrong length, LENGTH_MISMATCH; DECBKT LENGTH_MISMATCH exactly on a
wrong length and never ILLEGAL_OP; lookups ILLEGAL_OP exactly on a reserved table and never LENGTH_MISMATCH; a reserved
operation code always ILLEGAL_OP. No status above 3 is ever produced. -/
def Obligations.StatusOfEveryRequest : Prop :=
  ∀ (cfg : Cfg) (w : ReqWord), ∃ resp, akc cfg w = some resp ∧
    let op := (w.extractLsb' 160 4).toNat
    let len := w.extractLsb' 152 8
    let status := resp.extractLsb' 272 4
    status.toNat ≤ 3 ∧
    (op = 1 ∨ op = 3 ∨ op = 6 ∨ op = 7 → status = 0#4) ∧
    (op = 2 ∨ op = 4 ∨ op = 5 → status = if len = 8#8 then 0#4 else 1#4) ∧
    (op = 8 → (status = 1#4 ↔ len ≠ 16#8) ∧ status ≠ 3#4) ∧
    (op = 9 ∨ op = 10 → (status = 3#4 ↔ 5 ≤ (w.extractLsb' 157 3).toNat) ∧ status ≠ 1#4) ∧
    (op = 0 ∨ 11 ≤ op → status = 3#4)

/-! ### Buffers -/

/-- The big-endian readers: `be16`, `be32` and `be64` at an offset are `(B[o] << 8) | B[o+1]` and its wider forms, and
`bytes_be` is their inverse both ways (00_scope.md R15). -/
def Obligations.BigEndianBytesAndReadersAreInverse : Prop :=
  (∀ (B : Buffer) (o : Nat),
    (be16 B o).toNat = ((byteAt B o).toNat <<< 8) ||| (byteAt B (o + 1)).toNat ∧
    (be32 B o).toNat = ((byteAt B o).toNat <<< 24) ||| ((byteAt B (o + 1)).toNat <<< 16) |||
      ((byteAt B (o + 2)).toNat <<< 8) ||| (byteAt B (o + 3)).toNat ∧
    (be64 B o).toNat = ((be32 B o).toNat <<< 32) ||| (be32 B (o + 4)).toNat) ∧
  (∀ v : BitVec 16, be16 (bytesBE v 2) 0 = v) ∧ (∀ v : BitVec 32, be32 (bytesBE v 4) 0 = v) ∧
  (∀ v : BitVec 64, be64 (bytesBE v 8) 0 = v) ∧
  (∀ B : Buffer, B.length = 2 → bytesBE (be16 B 0) 2 = B) ∧ (∀ B : Buffer, B.length = 4 → bytesBE (be32 B 0) 4 = B) ∧
  (∀ B : Buffer, B.length = 8 → bytesBE (be64 B 0) 8 = B)

/-- A store into a buffer sets its own bytes, most significant first, and no other, and keeps the buffer's length (R16
decision D1; R60). -/
def Obligations.MemWriteSetsOnlyItsBytes : Prop :=
  ∀ (B : Buffer) (off n : Nat) (v : BitVec (8 * n)), off + n ≤ B.length →
    (memWrite B off n v).length = B.length ∧
    (∀ k < n, byteAt (memWrite B off n v) (off + k) = v.extractLsb' (8 * (n - k - 1)) 8) ∧
    (∀ o, o < off ∨ off + n ≤ o → byteAt (memWrite B off n v) o = byteAt B o)

/-! ### The configuration as a parameter -/

/-- `CFG` is a parameter of the step function and no part of what a step reads or writes besides: `stepUnder` takes a
configuration and ports without one, and the ports it leaves are the old ones with the first request answered by
`AKC(REQ, CFG)`, which depends on nothing held in the ports. The step of a machine built with a configuration is
`stepUnder` of that configuration, outcome by outcome; and the machine after reset is built with the deployment's, over
empty ports (10_state.md R51, derived in the spec; R20; R21 decision D1). That the pair of ports and configuration is the
host's state is notes/assumptions/1.md, and the ports are notes/assumptions/2.md (both DESIGN CHOICE). -/
def Obligations.StepTakesTheConfigurationAsParameter : Prop :=
  (∀ (cfg : Cfg) (p : Ports) (r : Request) (rest : List Request),
    p.resetAsserted = false → p.requests = r :: rest →
    ∃ w, akc cfg r.word = some w ∧
      stepUnder cfg p = .next { p with
        requests := rest
        serving := r.port
        responses := p.responses ++ [⟨r.port, w⟩] }) ∧
  (∀ (cfg : Cfg) (p : Ports),
    (∀ q, stepUnder cfg p = .next q ↔ step (p.under cfg) = .next (q.under cfg)) ∧
    (∀ f, stepUnder cfg p = .fault f ↔ step (p.under cfg) = .fault f) ∧
    (∀ x, stepUnder cfg p = .refused x ↔ step (p.under cfg) = .refused x)) ∧
  State.reset.cfg = Config.deployment ∧ State.reset.requests = [] ∧ State.reset.responses = []
end

