-- ==== Sys2Proof/Laws/State.lean ====
section
/-! SUPPORT. One lemma per field of State per update, each true by definition, so that no proof unfolds an update. -/

namespace Sys2Proof.Machine

variable (s : State)

@[simp] theorem State.toPorts_under : s.toPorts.under s.cfg = s := rfl
@[simp] theorem Ports.under_toPorts (p : Ports) (cfg : Cfg) : (p.under cfg).toPorts = p := rfl
@[simp] theorem Ports.under_cfg (p : Ports) (cfg : Cfg) : (p.under cfg).cfg = cfg := rfl

/-- A step of a machine of configuration `cfg` is the step of its ports under `cfg`. -/
theorem step_under (p : Ports) (cfg : Cfg) : step (p.under cfg) = underCfg cfg (stepUnder cfg p) := rfl

@[simp] theorem State.deliver_cfg (w : RespWord) : (s.deliver w).cfg = s.cfg := rfl
@[simp] theorem State.deliver_resetAsserted (w : RespWord) : (s.deliver w).resetAsserted = s.resetAsserted := rfl
@[simp] theorem State.deliver_requests (w : RespWord) : (s.deliver w).requests = s.requests := rfl
@[simp] theorem State.deliver_serving (w : RespWord) : (s.deliver w).serving = s.serving := rfl
@[simp] theorem State.deliver_responses (w : RespWord) :
    (s.deliver w).responses = s.responses ++ [⟨s.serving, w⟩] := rfl

@[simp] theorem State.accept_cfg (r : Request) (rest : List Request) : (s.accept r rest).cfg = s.cfg := rfl
@[simp] theorem State.accept_resetAsserted (r : Request) (rest : List Request) :
    (s.accept r rest).resetAsserted = s.resetAsserted := rfl
@[simp] theorem State.accept_requests (r : Request) (rest : List Request) : (s.accept r rest).requests = rest := rfl
@[simp] theorem State.accept_serving (r : Request) (rest : List Request) : (s.accept r rest).serving = r.port := rfl
@[simp] theorem State.accept_responses (r : Request) (rest : List Request) :
    (s.accept r rest).responses = s.responses := rfl

@[simp] theorem State.assertReset_cfg : s.assertReset.cfg = s.cfg := rfl
@[simp] theorem State.assertReset_resetAsserted : s.assertReset.resetAsserted = true := rfl
@[simp] theorem State.assertReset_requests : s.assertReset.requests = [] := rfl
@[simp] theorem State.assertReset_serving : s.assertReset.serving = s.serving := rfl
@[simp] theorem State.assertReset_responses : s.assertReset.responses = s.responses := rfl

@[simp] theorem State.releaseReset_cfg : s.releaseReset.cfg = s.cfg := rfl
@[simp] theorem State.releaseReset_resetAsserted : s.releaseReset.resetAsserted = false := rfl
@[simp] theorem State.releaseReset_requests : s.releaseReset.requests = s.requests := rfl
@[simp] theorem State.releaseReset_serving : s.releaseReset.serving = s.serving := rfl
@[simp] theorem State.releaseReset_responses : s.releaseReset.responses = s.responses := rfl

@[simp] theorem State.withFetchWord_cfg (n w : Nat) : (s.withFetchWord n w).cfg = s.cfg := rfl
@[simp] theorem State.withFetchWord_resetAsserted (n w : Nat) : (s.withFetchWord n w).resetAsserted = false := rfl
@[simp] theorem State.withFetchWord_requests (n w : Nat) :
    (s.withFetchWord n w).requests = ⟨0, BitVec.ofNat 164 w⟩ :: s.requests := rfl
@[simp] theorem State.withFetchWord_serving (n w : Nat) : (s.withFetchWord n w).serving = s.serving := rfl
@[simp] theorem State.withFetchWord_responses (n w : Nat) : (s.withFetchWord n w).responses = s.responses := rfl

/-- A request presented out of reset joins the end of the waiting requests. -/
theorem State.present_of_released (r : Request) (h : s.resetAsserted = false) :
    s.present r = { s with requests := s.requests ++ [r] } := by simp [State.present, h]

/-- A request presented in reset is not accepted. -/
theorem State.present_of_asserted (r : Request) (h : s.resetAsserted = true) : s.present r = s := by
  simp [State.present, h]

end Sys2Proof.Machine
end

