-- ==== Sys2Proof/Laws/Ops.lean ====
section
/-! SUPPORT. Everything the shared operations can do: each answers a next state that is the old one with one reply
more, and which reply it is depends on the configuration only. -/

namespace Sys2Proof.Machine

/-- `run` always completes with one reply, and the reply depends on nothing in the state but `cfg`. -/
def OneReply (run : State → Result) : Prop :=
  ∀ cfg : Cfg, ∃ w, ∀ s : State, s.cfg = cfg → run s = .next (s.deliver w)

theorem respond_oneReply (status : Status) (p : Payload) : OneReply (respond status p) :=
  fun _ => ⟨respWord status p, fun _ _ => rfl⟩

theorem raise_oneReply (f : AkcFault) : OneReply (raise f) := by
  cases f <;> exact respond_oneReply _ _

theorem withLength_oneReply (required : Byte) (b : BufOperands) {run : State → Result} (h : OneReply run) :
    OneReply (withLength required b run) := by
  intro cfg
  by_cases hl : b.len = required
  · obtain ⟨w, hw⟩ := h cfg
    exact ⟨w, fun s hs => by simpa [withLength, hl] using hw s hs⟩
  · obtain ⟨w, hw⟩ := raise_oneReply (.lengthMismatch required b.len) cfg
    exact ⟨w, fun s hs => by simpa [withLength, hl] using hw s hs⟩

theorem withTable_oneReply (op : BitVec 4) (sel : BitVec 3) {run : Table → State → Result}
    (h : ∀ T, OneReply (run T)) : OneReply (withTable op sel run) := by
  intro cfg
  cases ht : selectTable cfg sel with
  | some T =>
    obtain ⟨w, hw⟩ := h T cfg
    exact ⟨w, fun s hs => by simpa [withTable, hs, ht] using hw s hs⟩
  | none =>
    obtain ⟨w, hw⟩ := raise_oneReply (.illegalOp op) cfg
    exact ⟨w, fun s hs => by simpa [withTable, hs, ht] using hw s hs⟩

/-- On the required length the operation runs. -/
theorem withLength_of_eq {required : Byte} {b : BufOperands} (run : State → Result) (s : State)
    (h : b.len = required) : withLength required b run s = run s := by simp [withLength, h]

/-- On any other length it is LengthMismatch, whatever the operation. -/
theorem withLength_of_ne {required : Byte} {b : BufOperands} (run : State → Result) (s : State)
    (h : b.len ≠ required) :
    withLength required b run s = .next (s.deliver (1#4 ++ (required ++ b.len ++ 0#256))) := by
  simp [withLength, h, raise, respond, respWord, Status.code, Payload.bits]

/-- Every operation completes with one reply. -/
theorem exec_oneReply (i : Instr) : OneReply (exec i) := by
  cases i with
  | encsrc f => exact respond_oneReply _ _
  | decsrc b => exact withLength_oneReply _ _ (respond_oneReply _ _)
  | enctrg f => exact respond_oneReply _ _
  | dectrg b => exact withLength_oneReply _ _ (respond_oneReply _ _)
  | hex64 b => exact withLength_oneReply _ _ (respond_oneReply _ _)
  | fmtsrc f => exact respond_oneReply _ _
  | fmttrg f => exact respond_oneReply _ _
  | decbkt b =>
    refine withLength_oneReply _ _ fun cfg => ?_
    by_cases h : (decodeBucket cfg (laneBytes b.lanes 16)).allFound
    · exact ⟨_, fun s hs => by simp only [hs, h, if_true]; rfl⟩
    · exact ⟨_, fun s hs => by simp only [hs, h]; rfl⟩
  | enumfwd table nameId =>
    refine withTable_oneReply _ _ fun T cfg => ?_
    cases fwd T nameId with
    | some c => exact ⟨_, fun s _ => rfl⟩
    | none => exact ⟨_, fun s _ => rfl⟩
  | enumrev table code =>
    refine withTable_oneReply _ _ fun T cfg => ?_
    cases rev T code.toNat with
    | some c => exact ⟨_, fun s _ => rfl⟩
    | none => exact ⟨_, fun s _ => rfl⟩

/-- Answering a request word completes with one reply. -/
theorem answer_oneReply (word : ReqWord) : OneReply (answer word) := by
  intro cfg
  cases h : decode word with
  | ok i =>
    obtain ⟨w, hw⟩ := exec_oneReply i cfg
    exact ⟨w, fun s hs => by simpa [answer, h] using hw s hs⟩
  | error e =>
    obtain ⟨w, hw⟩ := raise_oneReply (.illegalOp e.op) cfg
    exact ⟨w, fun s hs => by simpa [answer, h] using hw s hs⟩

/-- With `CFG` a parameter: out of reset with a request waiting, a step leaves the ports that answering it leaves. -/
theorem stepUnder_of_request (cfg : Cfg) {p : Ports} {r : Request} {rest : List Request}
    (hr : p.resetAsserted = false) (hq : p.requests = r :: rest) :
    stepUnder cfg p = portsOf (answer r.word ((p.under cfg).accept r rest)) := by
  simp [stepUnder, hr, hq]

/-- A step out of reset with a request waiting takes that request and answers its word. -/
theorem step_of_request {s : State} {r : Request} {rest : List Request} (hr : s.resetAsserted = false)
    (hq : s.requests = r :: rest) : step s = answer r.word (s.accept r rest) := by
  obtain ⟨w, hw⟩ := answer_oneReply r.word s.cfg
  rw [step, stepUnder_of_request s.cfg hr hq, State.toPorts_under, hw (s.accept r rest) rfl]
  rfl

/-- All a step can do: none in reset, none without a request, else one reply to the oldest one. -/
theorem step_cases (s : State) :
    (s.resetAsserted = true ∧ step s = .fault .resetAsserted) ∨
    (s.resetAsserted = false ∧ s.requests = [] ∧ step s = .fault .noRequest) ∨
    ∃ r rest w, s.resetAsserted = false ∧ s.requests = r :: rest ∧
      step s = .next ((s.accept r rest).deliver w) := by
  cases hr : s.resetAsserted with
  | true => exact .inl ⟨rfl, by simp [step, stepUnder, underCfg, hr]⟩
  | false =>
    cases hq : s.requests with
    | nil => exact .inr (.inl ⟨rfl, rfl, by simp [step, stepUnder, underCfg, hr, hq]⟩)
    | cons r rest =>
      obtain ⟨w, hw⟩ := answer_oneReply r.word s.cfg
      exact .inr (.inr ⟨r, rest, w, rfl, rfl, by rw [step_of_request hr hq]; exact hw _ rfl⟩)

end Sys2Proof.Machine
end

