-- ==== Sys2Proof/Laws/Answers.lean ====
section
/-! SUPPORT. `Answers` and `akc`: an operation answers one word only, and `akc` is the word every step gives. -/

namespace Sys2Proof.Machine

/-- An operation answers one word in a state. -/
theorem Answers.unique {i : Instr} {s : State} {w w' : RespWord} (h : Answers i s w) (h' : Answers i s w') : w = w' := by
  unfold Answers at h h'
  rw [h] at h'
  simpa using h'

/-- The word may be written in any equal form. -/
theorem Answers.congr {i : Instr} {s : State} {w w' : RespWord} (h : Answers i s w) (e : w = w') : Answers i s w' := e ▸ h

/-- Two deliveries in one state are equal only if their words are. -/
theorem State.deliver_inj {s : State} {w w' : RespWord} (h : s.deliver w = s.deliver w') : w = w' := by
  simpa [State.deliver] using h

/-- Answering a request gives the word `akc` names, in every state of the configuration. -/
theorem akc_spec (cfg : Cfg) (w : ReqWord) :
    ∃ r, akc cfg w = some r ∧ ∀ s : State, s.cfg = cfg → answer w s = .next (s.deliver r) := by
  obtain ⟨r, hr⟩ := answer_oneReply w cfg
  refine ⟨r, ?_, hr⟩
  have h1 : step (State.fresh cfg w) = answer w ((State.fresh cfg w).accept ⟨0, w⟩ []) :=
    step_of_request (r := ⟨0, w⟩) (rest := []) rfl rfl
  have h2 := hr ((State.fresh cfg w).accept ⟨0, w⟩ []) rfl
  simp only [akc, h1, h2, State.deliver_responses, State.accept_responses]
  simp [State.fresh]

end Sys2Proof.Machine
end

