-- ==== Sys2Proof/Laws/Bits.lean ====
section
/-! SUPPORT. Concatenation and extraction of bit fields: a field cut out of a concatenation is the part it came from, and
adjacent fields join. The widths in the words' types are written as literals (a request word is `BitVec 164`, not
`BitVec (4 + 160)`), so the sums here are marked `no_index`, which lets `simp` find these lemmas on such words. -/

namespace Sys2Proof.Laws

/-- Bit `i` of a concatenation. -/
theorem getLsbD_concat {v w : Nat} (x : BitVec v) (y : BitVec w) (i : Nat) :
    BitVec.getLsbD (w := no_index (v + w))
      (@HAppend.hAppend (BitVec v) (BitVec w) (no_index (BitVec (v + w))) _ x y) i =
      if i < w then y.getLsbD i else x.getLsbD (i - w) :=
  BitVec.getLsbD_append

/-- A field inside the less significant part of a concatenation. -/
theorem extract_concat_low {v w : Nat} (x : BitVec v) (y : BitVec w) (o k : Nat) (h : o + k ≤ w) :
    BitVec.extractLsb' (n := no_index (v + w)) o k
      (@HAppend.hAppend (BitVec v) (BitVec w) (no_index (BitVec (v + w))) _ x y) = y.extractLsb' o k := by
  apply BitVec.eq_of_getLsbD_eq
  intro i hi
  simp only [BitVec.getLsbD_extractLsb', getLsbD_concat, if_pos (show o + i < w by omega)]

/-- A field inside the more significant part of a concatenation. -/
theorem extract_concat_high {v w : Nat} (x : BitVec v) (y : BitVec w) (o k : Nat) (h : w ≤ o) :
    BitVec.extractLsb' (n := no_index (v + w)) o k
      (@HAppend.hAppend (BitVec v) (BitVec w) (no_index (BitVec (v + w))) _ x y) = x.extractLsb' (o - w) k := by
  apply BitVec.eq_of_getLsbD_eq
  intro i hi
  simp only [BitVec.getLsbD_extractLsb', getLsbD_concat, if_neg (show ¬o + i < w by omega),
    show o + i - w = o - w + i by omega]

/-- A field of a field. -/
theorem extract_extract {n : Nat} (x : BitVec n) (o k o' k' : Nat) (h : o' + k' ≤ k) :
    (x.extractLsb' o k).extractLsb' o' k' = x.extractLsb' (o + o') k' := by
  apply BitVec.eq_of_getLsbD_eq
  intro i hi
  simp [show o' + i < k by omega, Nat.add_assoc]

/-- Two adjacent fields, the higher one first, are one field. -/
theorem extract_join {n : Nat} (x : BitVec n) (o o' j k : Nat) (h : o' + k = o) :
    @HAppend.hAppend (BitVec j) (BitVec k) (no_index (BitVec (j + k))) _ (x.extractLsb' o j) (x.extractLsb' o' k) =
      x.extractLsb' o' (j + k) := by
  subst h
  apply BitVec.eq_of_getLsbD_eq
  intro i hi
  simp only [BitVec.getLsbD_append, BitVec.getLsbD_extractLsb']
  by_cases hik : i < k
  · simp [hik, hi]
  · simp [hik, hi, show i - k < j by omega, show o' + k + (i - k) = o' + i by omega]

/-- The whole of a bit vector as a field. -/
theorem extract_all {n : Nat} (x : BitVec n) : x.extractLsb' 0 n = x := by simp

/-- Truncation is the lowest field. -/
theorem extract_low_eq_setWidth {n : Nat} (x : BitVec n) (k : Nat) : x.extractLsb' 0 k = x.setWidth k := by
  apply BitVec.eq_of_getLsbD_eq
  intro i hi
  simp

/-- A vector is its high part above its low part. -/
theorem split_concat {v w : Nat} (x : BitVec (v + w)) : x.extractLsb' w v ++ x.extractLsb' 0 w = x := by
  rw [extract_join x w 0 v w (by omega)]
  exact extract_all x

/-- Concatenation is associative. The cast is the identity once the widths are numerals (`BitVec.cast_eq`). -/
theorem concat_assoc {a b c : Nat} (x : BitVec a) (y : BitVec b) (z : BitVec c) :
    @HAppend.hAppend (BitVec a) (BitVec (no_index (b + c))) (no_index (BitVec (a + (b + c)))) _ x
      (@HAppend.hAppend (BitVec b) (BitVec c) (no_index (BitVec (b + c))) _ y z) =
      (x ++ y ++ z).cast (Nat.add_assoc a b c) := by
  apply BitVec.eq_of_getLsbD_eq
  intro i hi
  simp only [BitVec.getLsbD_cast, getLsbD_concat]
  split_ifs <;> first | rfl | omega | (congr 1; omega)

/-- Concatenation is injective in both parts. -/
theorem concat_inj {v w : Nat} {x x' : BitVec v} {y y' : BitVec w} (h : x ++ y = x' ++ y') : x = x' ∧ y = y' := by
  constructor
  · have := congrArg (fun z => BitVec.extractLsb' w v z) h
    simpa [extract_concat_high] using this
  · have := congrArg (fun z => BitVec.extractLsb' 0 w z) h
    simpa [extract_concat_low] using this

end Sys2Proof.Laws
end

