-- ==== Sys2Proof/Laws/Decode.lean ====
section
/-! SUPPORT. What each field reader reads from each payload, and what each payload is when built from the fields of a
word. -/

namespace Sys2Proof.Laws

@[simp] theorem ofCode_code (c : Opcode) : Opcode.ofCode c.code = some c := by cases c <;> decide

/-- A code is reserved exactly when it is 0 or above 10 (R93). -/
theorem ofCode_eq_none_iff (op : BitVec 4) : Opcode.ofCode op = none ↔ op.toNat = 0 ∨ 11 ≤ op.toNat := by
  revert op; decide

/-- The operation found for a code has that code. -/
theorem code_of_ofCode : ∀ (op : BitVec 4) (c : Opcode), Opcode.ofCode op = some c → c.code = op := by
  intro op c h
  revert op
  cases c <;> decide

@[simp] theorem opField_concat (op : BitVec 4) (p : BitVec 160) : opField (op ++ p) = op := by
  simp [opField, extract_concat_high]

@[simp] theorem qsrc_concat (op : BitVec 4) (f : SrcOperands) : qsrc (op ++ qsrcBits f) = f := by
  cases f
  simp [qsrc, qsrcBits, extract_concat_high, extract_concat_low]

@[simp] theorem qtrg_concat (op : BitVec 4) (f : TrgOperands) : qtrg (op ++ qtrgBits f) = f := by
  cases f
  simp [qtrg, qtrgBits, extract_concat_high, extract_concat_low]

@[simp] theorem qbuf_concat (op : BitVec 4) (b : BufOperands) : qbuf (op ++ qbufBits b) = b := by
  cases b
  simp [qbuf, qbufBits, extract_concat_high, extract_concat_low]

/-- The operands of a QSRC payload are all of it. -/
theorem qsrcBits_qsrc (w : ReqWord) : qsrcBits (qsrc w) = w.extractLsb' 0 160 := by
  simp [qsrc, qsrcBits, extract_join]

/-- The operands of a QTRG payload are all of it. -/
theorem qtrgBits_qtrg (w : ReqWord) : qtrgBits (qtrg w) = w.extractLsb' 0 160 := by
  simp [qtrg, qtrgBits, extract_join]

/-- The operands of a QBUF payload are all of it but the 24 ignored bits. -/
theorem qbufBits_qbuf (w : ReqWord) : qbufBits (qbuf w) = w.extractLsb' 24 136 ++ 0#24 := by
  simp [qbuf, qbufBits, extract_join]

/-- A decoded word's operation code names the operation. -/
theorem opcode_of_decode {w : ReqWord} {i : Instr} (h : decode w = .ok i) : i.opcode.code = opField w := by
  unfold decode at h
  split at h
  · cases h
  all_goals
    rename_i hc
    first
    | (cases h; exact code_of_ofCode _ _ hc)
    | (split at h
       · cases h; exact code_of_ofCode _ _ hc
       · cases h)

/-- A rejection records the word's operation code. -/
theorem op_of_decode_error {w : ReqWord} {e : DecodeError} (h : decode w = .error e) : e.op = opField w := by
  unfold decode at h
  split at h
  · cases h; rfl
  all_goals
    first
    | cases h
    | (split at h
       · cases h
       · cases h; rfl)

end Sys2Proof.Laws
end

