-- ==== Sys2Proof/Laws/Operands.lean ====
section
/-! SUPPORT. Buffers, lanes and tables: what a read gives, what a store leaves, what a lookup finds. -/

namespace Sys2Proof.Machine

open Sys2Proof.Laws

/-! ### Lanes and buffers -/

@[simp] theorem laneBytes_length (lanes : BitVec 128) (n : Nat) : (laneBytes lanes n).length = n := by
  simp [laneBytes]

@[simp] theorem bytesBE_length {w : Nat} (v : BitVec w) (n : Nat) : (bytesBE v n).length = n := by simp [bytesBE]

/-- Offset `k` of a lane buffer is lane `k`. -/
theorem byteAt_laneBytes (lanes : BitVec 128) {n k : Nat} (h : k < n) : byteAt (laneBytes lanes n) k = lane lanes k := by
  simp [byteAt, laneBytes, h]

/-- Offset `k` of `bytes_be(v, n)`. -/
theorem byteAt_bytesBE {w : Nat} (v : BitVec w) {n k : Nat} (h : k < n) :
    byteAt (bytesBE v n) k = v.extractLsb' (8 * (n - k - 1)) 8 := by
  simp [byteAt, bytesBE, h]

/-- Two adjacent lanes read as a 16-bit big-endian word. -/
theorem be16_laneBytes (lanes : BitVec 128) {n k : Nat} (h : k + 1 < n) (hk : k ≤ 14) :
    be16 (laneBytes lanes n) k = lanes.extractLsb' (112 - 8 * k) 16 := by
  rw [be16, byteAt_laneBytes _ h, byteAt_laneBytes _ (by omega)]
  unfold lane
  rw [extract_join _ _ _ _ _ (by omega)]
  congr 1
  omega

/-- Four adjacent lanes read as a 32-bit big-endian word. -/
theorem be32_laneBytes (lanes : BitVec 128) {n k : Nat} (h : k + 3 < n) (hk : k ≤ 12) :
    be32 (laneBytes lanes n) k = lanes.extractLsb' (96 - 8 * k) 32 := by
  rw [be32, byteAt_laneBytes _ h, byteAt_laneBytes _ (by omega), byteAt_laneBytes _ (by omega),
    byteAt_laneBytes _ (by omega)]
  unfold lane
  rw [extract_join _ _ _ _ _ (by omega), extract_join _ _ _ _ _ (by omega), extract_join _ _ _ _ _ (by omega)]
  congr 1
  omega

/-- The buffer the three stores of a source encoder leave, byte by byte in terms of its first word. -/
theorem encodeSrc_eq (f : SrcOperands) :
    encodeSrc f =
      bytesBE (BitVec.ofNat 32 ((((f.type.toNat <<< 6) ||| f.dimension.toNat) <<< 24) ||| f.id.toNat)) 4 ++
        bytesBE (f.advertiser.extractLsb' 0 16) 2 ++ bytesBE (f.publisher.extractLsb' 0 16) 2 := by
  simp [encodeSrc, memWrite, recordBuffer, bytesBE, List.range_succ, ← extract_low_eq_setWidth, extract_extract]

/-- The buffer the four stores of a trigger encoder leave. -/
theorem encodeTrg_eq (f : TrgOperands) :
    encodeTrg f =
      bytesBE (BitVec.ofNat 32 ((f.type.toNat <<< 24) ||| f.id.toNat)) 4 ++ bytesBE (f.size.extractLsb' 0 8) 1 ++
        bytesBE (f.category.extractLsb' 0 8) 1 ++ bytesBE (f.option.extractLsb' 0 16) 2 := by
  simp [encodeTrg, memWrite, recordBuffer, bytesBE, List.range_succ, ← extract_low_eq_setWidth, extract_extract]

/-- The eight bytes of a buffer as one 64-bit word. -/
theorem be64_bytes (a b c d e f g h : Byte) :
    be64 [a, b, c, d, e, f, g, h] 0 = a ++ b ++ c ++ d ++ e ++ f ++ g ++ h := by
  simp only [be64, be32, byteAt, concat_assoc, BitVec.cast_eq]
  rfl

theorem bytesBE_four (v : BitVec 32) :
    bytesBE v 4 = [v.extractLsb' 24 8, v.extractLsb' 16 8, v.extractLsb' 8 8, v.extractLsb' 0 8] := by
  simp [bytesBE, List.range_succ]

theorem bytesBE_two (v : BitVec 16) : bytesBE v 2 = [v.extractLsb' 8 8, v.extractLsb' 0 8] := by
  simp [bytesBE, List.range_succ]

theorem bytesBE_one (v : BitVec 8) : bytesBE v 1 = [v] := by simp [bytesBE, List.range_succ]

/-- The 64-bit word of a buffer laid out as a source record. -/
theorem be64_sourceLayout (a : BitVec 32) (b c : BitVec 16) :
    be64 (bytesBE a 4 ++ bytesBE b 2 ++ bytesBE c 2) 0 = a ++ b ++ c := by
  rw [bytesBE_four, bytesBE_two, bytesBE_two]
  simp only [List.cons_append, List.nil_append]
  rw [be64_bytes]
  have ha : a.extractLsb' 24 8 ++ a.extractLsb' 16 8 ++ a.extractLsb' 8 8 ++ a.extractLsb' 0 8 = a := by
    simp [extract_join]
  have hb : ∀ b : BitVec 16, b.extractLsb' 8 8 ++ b.extractLsb' 0 8 = b := by intro b; simp [extract_join]
  rw [ha]
  conv_rhs => rw [← hb b, ← hb c]
  simp only [concat_assoc, BitVec.cast_eq]

/-- The 64-bit word of a buffer laid out as a trigger record. -/
theorem be64_triggerLayout (a : BitVec 32) (b c : BitVec 8) (d : BitVec 16) :
    be64 (bytesBE a 4 ++ bytesBE b 1 ++ bytesBE c 1 ++ bytesBE d 2) 0 = a ++ b ++ c ++ d := by
  rw [bytesBE_four, bytesBE_two, bytesBE_one, bytesBE_one]
  simp only [List.cons_append, List.nil_append]
  rw [be64_bytes]
  have ha : a.extractLsb' 24 8 ++ a.extractLsb' 16 8 ++ a.extractLsb' 8 8 ++ a.extractLsb' 0 8 = a := by
    simp [extract_join]
  have hd : ∀ d : BitVec 16, d.extractLsb' 8 8 ++ d.extractLsb' 0 8 = d := by intro d; simp [extract_join]
  rw [ha]
  conv_rhs => rw [← hd d]
  simp only [concat_assoc, BitVec.cast_eq]

/-! ### Tables -/

/-- What legality says, clause by clause (R41). -/
theorem Table.legal_iff {bound : Nat} {T : Table} :
    Table.legal bound T = true ↔
      (T.map Entry.code).Nodup ∧ (T.map Entry.name).Nodup ∧ (∀ e ∈ T, e.code < bound) ∧ T.length ≤ 65535 := by
  simp [Table.legal, and_assoc]

/-- Every table a selector can name is legal for a 16-bit field. -/
theorem selectTable_legal {cfg : Cfg} {sel : BitVec 3} {T : Table} (h : selectTable cfg sel = some T) :
    Table.legal 65536 T = true := by
  unfold selectTable at h
  split at h <;> first
    | (cases h; first | exact cfg.advLegal | exact cfg.pubLegal | decide)
    | cases h

/-- A selector names a table exactly when it is below 5 (R101). -/
theorem selectTable_eq_none_iff (cfg : Cfg) (sel : BitVec 3) : selectTable cfg sel = none ↔ 5 ≤ sel.toNat := by
  have := sel.isLt
  unfold selectTable
  split <;> simp_all
  omega

/-- In a table whose codes differ, the entry of a code stands at one position only. -/
theorem position_unique {T : Table} (h : (T.map Entry.code).Nodup) {i j : Nat} {e e' : Entry}
    (hi : T[i]? = some e) (hj : T[j]? = some e') (hc : e.code = e'.code) : i = j := by
  have hil : i < (T.map Entry.code).length := by
    simpa using (List.getElem?_eq_some_iff.mp hi).1
  refine (h.getElem_inj_iff (hi := hil) (hj := by simpa using (List.getElem?_eq_some_iff.mp hj).1)).mp ?_
  obtain ⟨_, rfl⟩ := List.getElem?_eq_some_iff.mp hi
  obtain ⟨_, rfl⟩ := List.getElem?_eq_some_iff.mp hj
  simpa using hc

/-- `rev` finds the entry of a code wherever it stands. -/
theorem rev_of_entry {T : Table} (h : (T.map Entry.code).Nodup) {i : Nat} {e : Entry} (hi : T[i]? = some e) :
    rev T e.code = some (BitVec.ofNat 16 i) := by
  cases hf : T.findIdx? (fun e' => e'.code == e.code) with
  | none =>
    have := List.findIdx?_eq_none_iff.mp hf e (List.mem_of_getElem? hi)
    simp at this
  | some j =>
    obtain ⟨hj, hp, _⟩ := List.findIdx?_eq_some_iff_getElem.mp hf
    have : j = i := position_unique h (List.getElem?_eq_getElem hj) hi (by simpa using hp)
    simp [rev, hf, this]

/-- `rev` finds nothing exactly when no entry has the code. -/
theorem rev_eq_none_iff {T : Table} {c : Nat} : rev T c = none ↔ ∀ e ∈ T, e.code ≠ c := by
  simp [rev, List.findIdx?_eq_none_iff]

/-- What `rev` finds is the position of an entry of the code. -/
theorem entry_of_rev {T : Table} {c : Nat} {i : NameId} (hl : T.length ≤ 65535) (h : rev T c = some i) :
    ∃ e, T[i.toNat]? = some e ∧ e.code = c := by
  simp only [rev, Option.map_eq_some_iff] at h
  obtain ⟨j, hj, rfl⟩ := h
  obtain ⟨hlt, hp, _⟩ := List.findIdx?_eq_some_iff_getElem.mp hj
  refine ⟨T[j], ?_, by simpa using hp⟩
  rw [BitVec.toNat_ofNat, Nat.mod_eq_of_lt (by omega)]
  exact List.getElem?_eq_getElem hlt

end Sys2Proof.Machine
end

