-- ==== Sys2Proof/Laws/PerInstr.lean ====
section
/-! SUPPORT. Facts proved instruction by instruction. Family EncodedOp: an encoded instruction carries its operation's
code in `REQ[163:160]` (30_encoding.md R90, R91). -/

namespace Sys2Proof.Laws.EncodedOp

def Statement (i : Instr) : Prop := opField (encode i) = i.opcode.code

theorem encsrc (f : SrcOperands) : Statement (.encsrc f) := by simp [Statement, encode]
theorem decsrc (b : BufOperands) : Statement (.decsrc b) := by simp [Statement, encode]
theorem enctrg (f : TrgOperands) : Statement (.enctrg f) := by simp [Statement, encode]
theorem dectrg (b : BufOperands) : Statement (.dectrg b) := by simp [Statement, encode]
theorem hex64 (b : BufOperands) : Statement (.hex64 b) := by simp [Statement, encode]
theorem fmtsrc (f : SrcOperands) : Statement (.fmtsrc f) := by simp [Statement, encode]
theorem fmttrg (f : TrgOperands) : Statement (.fmttrg f) := by simp [Statement, encode]
theorem decbkt (b : BufOperands) : Statement (.decbkt b) := by simp [Statement, encode]
theorem enumfwd (table : BitVec 3) (nameId : NameId) : Statement (.enumfwd table nameId) := by
  simp [Statement, encode, opField, extract_concat_high]
theorem enumrev (table : BitVec 3) (code : Operand) : Statement (.enumrev table code) := by
  simp [Statement, encode, opField, extract_concat_high]

end Sys2Proof.Laws.EncodedOp
end

