-- ==== Sys2Proof/Laws/Response.lean ====
section
/-! SUPPORT. Strings inside response words: the bits of a packed string, and its characters read back. -/

namespace Sys2Proof.Machine

open Sys2Proof.Laws

theorem packBytes_nil (n : Nat) : packBytes n [] = 0#n := rfl

/-- Packing a string with one character more shifts it by a byte. -/
theorem packBytes_snoc (n : Nat) (s : Buffer) (c : Byte) :
    packBytes n (s ++ [c]) = packBytes n s <<< 8 ||| c.setWidth n := by simp [packBytes]

/-- Bit `i` of a packed string: of the character it falls in, or 0 above the string. -/
theorem packBytes_getLsbD (n : Nat) (s : Buffer) (i : Nat) (hi : i < n) :
    (packBytes n s).getLsbD i =
      if i < 8 * s.length then (s.getD (s.length - 1 - i / 8) 0#8).getLsbD (i % 8) else false := by
  induction s using List.reverseRecOn generalizing i with
  | nil => simp [packBytes_nil]
  | append_singleton s c ih =>
    rw [packBytes_snoc, BitVec.getLsbD_or, BitVec.getLsbD_shiftLeft, BitVec.getLsbD_setWidth]
    by_cases h8 : i < 8
    · have h0 : i / 8 = 0 := by omega
      simp [h8, hi, h0, Nat.mod_eq_of_lt h8, show i < 8 * (s.length + 1) by omega]
    · have hc : c.getLsbD i = false := BitVec.getLsbD_of_ge _ _ (by omega)
      rw [ih (i - 8) (by omega)]
      simp only [h8, hi, hc, decide_true, decide_false, Bool.not_false, Bool.true_and, Bool.and_false,
        Bool.or_false, List.length_append, List.length_singleton]
      by_cases hl : i < 8 * (s.length + 1)
      · rw [if_pos (by omega), if_pos hl, show s.length + 1 - 1 - i / 8 = s.length - 1 - (i - 8) / 8 by omega,
          show (i - 8) % 8 = i % 8 by omega, List.getD_append _ _ _ _ (by omega)]
      · rw [if_neg (by omega), if_neg hl]

/-- Character `j` of a string packed into exactly its own width. -/
theorem packBytes_char (s : Buffer) (n j : Nat) (hn : n = 8 * s.length) (hj : j < s.length) :
    (packBytes n s).extractLsb' (8 * (s.length - 1 - j)) 8 = s.getD j 0#8 := by
  apply BitVec.eq_of_getLsbD_eq
  intro i hi
  rw [BitVec.getLsbD_extractLsb', packBytes_getLsbD _ _ _ (by omega), if_pos (by omega),
    show s.length - 1 - (8 * (s.length - 1 - j) + i) / 8 = j by omega,
    show (8 * (s.length - 1 - j) + i) % 8 = i by omega]
  simp [hi]

/-- A string in two parts packs to the concatenation of the parts. -/
theorem packBytes_append (s t : Buffer) (a b : Nat) (ha : a = 8 * s.length) (hb : b = 8 * t.length) :
    packBytes (a + b) (s ++ t) = packBytes a s ++ packBytes b t := by
  apply BitVec.eq_of_getLsbD_eq
  intro i hi
  rw [packBytes_getLsbD _ _ _ hi, getLsbD_concat, if_pos (by simp only [List.length_append]; omega)]
  simp only [List.length_append]
  by_cases hib : i < b
  · rw [if_pos hib, packBytes_getLsbD _ _ _ hib, if_pos (by omega), List.getD_append_right _ _ _ _ (by omega),
      show s.length + t.length - 1 - i / 8 - s.length = t.length - 1 - i / 8 by omega]
  · rw [if_neg hib, packBytes_getLsbD _ _ _ (by omega), if_pos (by omega), List.getD_append _ _ _ _ (by omega),
      show s.length + t.length - 1 - i / 8 = s.length - 1 - (i - b) / 8 by omega, show (i - b) % 8 = i % 8 by omega]

/-- The payload of a response word. -/
theorem payload_of_respWord (status : Status) (p : Payload) : (respWord status p).extractLsb' 0 272 = p.bits := by
  simp [respWord, extract_concat_low]

/-- The status of a response word. -/
theorem status_of_respWord (status : Status) (p : Payload) : (respWord status p).extractLsb' 272 4 = status.code := by
  simp [respWord, extract_concat_high]

end Sys2Proof.Machine
end

