-- ==== Sys2Proof/Tests/Slice0.lean ====
section
/-! SUPPORT. The model's own tests: the ill-formed terms that are refused, a word of every operation decoded, one or two
steps of each operation, and a witness for the hypotheses of every statement. The expected words are those printed in
spec/95_test_vectors.md section 2, unless a comment says otherwise. -/

namespace Sys2Proof.Tests

open Sys2Proof Sys2Proof.Machine

/-! ### Ill-formed terms -/

/-- A lookup in a reserved table is refused (R101). -/
theorem test_wf_refuses_reserved_table :
    (Instr.enumfwd 5#3 0#16).wf = false ∧ (Instr.enumrev 7#3 0#32).wf = false ∧
      (Instr.enumfwd 4#3 0#16).wf = true := by decide

/-- Two entries of one code: clause (a) of R41. -/
theorem test_legal_refuses_equal_codes : Table.legal 65536 [⟨"a", 1⟩, ⟨"b", 1⟩] = false := by decide

/-- Two entries of one name: clause (b) of R41. -/
theorem test_legal_refuses_equal_names : Table.legal 65536 [⟨"a", 1⟩, ⟨"a", 2⟩] = false := by decide

/-- A code the field cannot hold: clause (c) of R41. -/
theorem test_legal_refuses_wide_code :
    Table.legal 65536 [⟨"a", 65536⟩] = false ∧ Table.legal 65536 [⟨"a", 65535⟩] = true := by decide

/-- More than 65535 entries: clause (d) of R41. -/
theorem test_legal_refuses_long_table (T : Table) (h : T.length = 65536) : Table.legal 65536 T = false := by
  simp [Table.legal, h]

/-! ### Decoding: words written out from 30_encoding.md -/

/-- op 1; type, dimension, id, advertiser, publisher, 32 bits each. -/
theorem test_decode_encsrc :
    decode (0b0001#4 ++ 2#32 ++ 1#32 ++ 0xff#32 ++ 3#32 ++ 4#32) = .ok (.encsrc ⟨2#32, 1#32, 0xff#32, 3#32, 4#32⟩) := by
  decide

/-- op 2; len, 16 lanes, 24 ignored bits (all ones here). -/
theorem test_decode_decsrc :
    decode (0b0010#4 ++ 8#8 ++ 0x000102030405060708090a0b0c0d0e0f#128 ++ 0xffffff#24) =
      .ok (.decsrc ⟨8#8, 0x000102030405060708090a0b0c0d0e0f#128⟩) := by decide

/-- op 3; type, id, size, category, option. -/
theorem test_decode_enctrg :
    decode (0b0011#4 ++ 0x80#32 ++ 1#32 ++ 2#32 ++ 3#32 ++ 4#32) = .ok (.enctrg ⟨0x80#32, 1#32, 2#32, 3#32, 4#32⟩) := by
  decide

/-- op 4. -/
theorem test_decode_dectrg :
    decode (0b0100#4 ++ 9#8 ++ 0x80000001020300040000000000000001#128 ++ 0#24) =
      .ok (.dectrg ⟨9#8, 0x80000001020300040000000000000001#128⟩) := by decide

/-- op 5. -/
theorem test_decode_hex64 :
    decode (0b0101#4 ++ 8#8 ++ 0x0a0000000000000f0000000000000000#128 ++ 0#24) =
      .ok (.hex64 ⟨8#8, 0x0a0000000000000f0000000000000000#128⟩) := by decide

/-- op 6. -/
theorem test_decode_fmtsrc :
    decode (0b0110#4 ++ 2#32 ++ 1#32 ++ 0xff#32 ++ 1#32 ++ 0x100#32) =
      .ok (.fmtsrc ⟨2#32, 1#32, 0xff#32, 1#32, 0x100#32⟩) := by decide

/-- op 7. -/
theorem test_decode_fmttrg :
    decode (0b0111#4 ++ 0xc0#32 ++ 0xbeef#32 ++ 0x10#32 ++ 0x20#32 ++ 0x3040#32) =
      .ok (.fmttrg ⟨0xc0#32, 0xbeef#32, 0x10#32, 0x20#32, 0x3040#32⟩) := by decide

/-- op 8. -/
theorem test_decode_decbkt :
    decode (0b1000#4 ++ 16#8 ++ 0x810000ff00010100c000beef10203040#128 ++ 0#24) =
      .ok (.decbkt ⟨16#8, 0x810000ff00010100c000beef10203040#128⟩) := by decide

/-- op 9; table, name_id, 141 ignored bits (one of them 1 here). -/
theorem test_decode_enumfwd :
    decode (0b1001#4 ++ 0b100#3 ++ 0xfffe#16 ++ 1#141) = .ok (.enumfwd 4#3 0xfffe#16) := by decide

/-- op 10; table, code, 125 ignored bits. -/
theorem test_decode_enumrev :
    decode (0b1010#4 ++ 0b001#3 ++ 0xc0#32 ++ 1#125) = .ok (.enumrev 1#3 0xc0#32) := by decide

/-- The opcode table's word of a row is the request word itself; a word of more than 164 bits is none. -/
theorem test_decodeTableWord :
    decodeTableWord 164 0x92000200000000000000000000000000000000000 = some (.enumfwd 1#3 1#16) ∧
      decodeTableWord 164 0x9a000200000000000000000000000000000000000 = none ∧
      decodeTableWord 164 0xb0000000000000000000000000000000000000000 = none ∧
      decodeTableWord 168 (2 ^ 164) = none := by decide

/-! ### One step of each operation, under CFG_TEST (95_test_vectors.md section 0) -/

/-- `CFG_TEST`. -/
def cfgTest : Cfg where
  adv := [⟨"adv0", 1⟩, ⟨"adv1", 2⟩]
  pub := [⟨"pub0", 1⟩, ⟨"pub1", 0x100⟩]
  advLegal := by decide
  pubLegal := by decide

/-- The response of one step to one request, under `CFG_TEST`. -/
def reply (req : ReqWord) : Option RespWord := akc cfgTest req

/-- In range: every field in its own place. -/
theorem test_encsrc_in_range :
    reply 0x1000000030000000000123456000001020000a0b0#164 =
      some 0x0c01234560102a0b00000000000000000000000000000000000000000000000000000#276 := by decide

/-- Out of range: bit 24 of `id` falls on `dimension`. -/
theorem test_encsrc_wide_id :
    reply 0x10000000200000000010000000000000000000000#164 =
      some 0x081000000000000000000000000000000000000000000000000000000000000000000#276 := by decide

/-- Lanes 8 to 15 and the ignored bits all ones (2.7). -/
theorem test_decsrc_ignored_ones :
    reply 0x208810000ff00000000ffffffffffffffffffffff#164 =
      some 0x0810000ff000000000000000000000000000000000000000000000000000000000000#276 := by decide

theorem test_decsrc_wrong_length :
    reply 0x207810000ff000000000000000000000000000000#164 =
      some 0x108070000000000000000000000000000000000000000000000000000000000000000#276 := by decide

theorem test_enctrg :
    reply 0x30000008000000001000000020000000300000004#164 =
      some 0x080000001020300040000000000000000000000000000000000000000000000000000#276 := by decide

/-- `category` 0x201 does not reach `size`: the input of 2.2 that separates the two readings of D6. -/
theorem test_enctrg_wide_category :
    reply (3#4 ++ 0#32 ++ 0#32 ++ 0#32 ++ 0x201#32 ++ 0#32) = some (0#4 ++ 0x0000000000010000#64 ++ 0#208) := by decide

theorem test_dectrg :
    reply 0x40880000001020300040000000000000000000000#164 =
      some 0x080000001020300040000000000000000000000000000000000000000000000000000#276 := by decide

/-- Both ends of both digit ranges: 0, a, f. -/
theorem test_hex64 :
    reply 0x5080a0000000000000f0000000000000000000000#164 =
      some 0x030613030303030303030303030303066000000000000000000000000000000000000#276 := by decide

theorem test_hex64_wrong_length : reply (5#4 ++ 16#8 ++ 0#152) = some (1#4 ++ 8#8 ++ 16#8 ++ 0#256) := by decide

theorem test_fmtsrc :
    reply 0x60000000200000001000000ff0000000000000000#164 =
      some 0x030783831303030306666303030303030303030303030303030303030303030303030#276 := by decide

theorem test_fmttrg :
    reply 0x70000008000000001000000020000000300000004#164 =
      some 0x030783030303030303030303030303030303038303030303030313032303330303034#276 := by decide

theorem test_decbkt_all_found :
    reply 0x810810000ff00010100c000beef10203040000000#164 =
      some 0x0810000ff00010100c000beef102030408000c0006000100018000800000000000000#276 := by decide

/-- Three lookups fail, among them trigger type 0, and the fields are delivered. -/
theorem test_decbkt_lookup_fail :
    reply 0x81000000000000000000000000000000000000000#164 =
      some 0x200000000000000000000000000000000800040001fffeffff7fff800000000000000#276 := by decide

theorem test_enumfwd :
    reply 0x92000200000000000000000000000000000000000#164 =
      some 0x080000060000000000000000000000000000000000000000000000000000000000000#276 := by decide

/-- One position past the end of the table. -/
theorem test_enumfwd_past_end :
    reply 0x90000600000000000000000000000000000000000#164 =
      some 0x27fffffff800000000000000000000000000000000000000000000000000000000000#276 := by decide

theorem test_enumrev :
    reply 0xa0000000040000000000000000000000000000000#164 =
      some 0x080008000000000000000000000000000000000000000000000000000000000000000#276 := by decide

/-- Code 0x10002 is not code 2: all 32 bits are compared (2.6). -/
theorem test_enumrev_wide_code :
    reply (10#4 ++ 0#3 ++ 0x10002#32 ++ 0#125) =
      some 0x27fff8000000000000000000000000000000000000000000000000000000000000000#276 := by decide

theorem test_reserved_op :
    reply 0xf0000000000000000000000000000000000001234#164 =
      some 0x3f0000000000000000000000000000000000000000000000000000000000000000000#276 := by decide

theorem test_reserved_table :
    reply 0xaa000000000000000000000000000000000000000#164 =
      some 0x3a0000000000000000000000000000000000000000000000000000000000000000000#276 := by decide

/-- The very next step runs the placed word, from reset and whatever the two open tables hold. -/
theorem test_withFetchWord_runs :
    step (State.reset.withFetchWord 164 0x10000000200000001000000ff0000000000000000) =
      .next { State.reset with
        responses := [⟨0, 0x0810000ff000000000000000000000000000000000000000000000000000000000000#276⟩] } := by rfl

/-- `DecodedBucket` of row 1 of 2.5. -/
theorem test_decodedBucket :
    decodedBucket cfgTest 0x0810000ff00010100c000beef102030408000c0006000100018000800000000000000#276 =
      ⟨⟨some "click", some "gross", 255#24, some "adv0", some "pub1"⟩,
       ⟨some "gross", 0xbeef#24, 0x10#8, 0x20#8, 0x3040#16⟩⟩ := by decide

/-! ### Witnesses: for each statement with hypotheses, inputs that meet them together -/

/-- A machine out of reset with these requests waiting and one reply given. -/
def waiting (requests : List Request) : State where
  cfg := cfgTest
  resetAsserted := false
  requests := requests
  serving := 3
  responses := [⟨3, 0x3f0000000000000000000000000000000000000000000000000000000000000000000#276⟩]

/-- ENUMFWD table 4, name 1. -/
def reqA : ReqWord := 9#4 ++ 4#3 ++ 1#16 ++ 0#141

/-- A reserved operation code. -/
def reqB : ReqWord := 0xf#4 ++ 0x1234#160

/-- The largest in-range source record. -/
def srcMax : SrcOperands := ⟨3#32, 63#32, 0xFFFFFF#32, 0xFFFF#32, 0xFFFF#32⟩

/-- The largest in-range trigger record. -/
def trgMax : TrgOperands := ⟨0xFF#32, 0xFFFFFF#32, 0xFF#32, 0xFF#32, 0xFFFF#32⟩

theorem witness_DecodeOfEncodeIsIdentity :
    (Instr.enumfwd 4#3 0xFFFF#16).wf = true ∧ (Instr.enumrev 0#3 0xFFFFFFFF#32).wf = true ∧
      (Instr.encsrc srcMax).wf = true := by decide

theorem witness_EncodeOfDecodeClearsIgnoredBits :
    decode (2#4 ++ 8#8 ++ 0x810000ff000000000000000000000000#128 ++ 0xffffff#24) =
        .ok (.decsrc ⟨8#8, 0x810000ff000000000000000000000000#128⟩) ∧
      decode (9#4 ++ 4#3 ++ 1#16 ++ 1#141) = .ok (.enumfwd 4#3 1#16) := by decide

/-- Each clause at the ends of its range: codes 0, 0xB, 0xF; codes 9 and 10 with tables 5 and 7; codes 1, 8 and 10
with table 4. -/
theorem witness_EveryWordIsOperationOrIllegal :
    let op : ReqWord → Nat := fun w => (w.extractLsb' 160 4).toNat
    let table : ReqWord → Nat := fun w => (w.extractLsb' 157 3).toNat
    op (0#4 ++ 0#160) = 0 ∧ op (0xb#4 ++ 0#160) = 11 ∧ op reqB = 15 ∧
      (op (9#4 ++ 5#3 ++ 0#157) = 9 ∧ table (9#4 ++ 5#3 ++ 0#157) = 5) ∧
      (op (10#4 ++ 7#3 ++ 0#157) = 10 ∧ table (10#4 ++ 7#3 ++ 0#157) = 7) ∧
      op (1#4 ++ 7#3 ++ 0#157) = 1 ∧ op (8#4 ++ 7#3 ++ 0#157) = 8 ∧
      (op (10#4 ++ 4#3 ++ 0#157) = 10 ∧ table (10#4 ++ 4#3 ++ 0#157) = 4) := by decide

theorem witness_IgnoredBitsNeverInfluence :
    let w : ReqWord := 2#4 ++ 8#8 ++ 0#128 ++ 0#24
    let w' : ReqWord := 2#4 ++ 8#8 ++ 0#128 ++ 0xffffff#24
    (w.extractLsb' 160 4 = Opcode.decsrc.code ∧ w >>> Opcode.decsrc.ignoredBits = w' >>> Opcode.decsrc.ignoredBits) ∧
      (0xf#4 ++ 0#160 : ReqWord).extractLsb' 160 4 = reqB.extractLsb' 160 4 ∧
      11 ≤ (reqB.extractLsb' 160 4).toNat := by decide

/-- The lanes differ where they are not examined; the wrong lengths are 7 and 9, and 15 and 17. -/
theorem witness_UnexaminedLanesNeverInfluence :
    (0x810000ff000000000000000000000000#128).extractLsb' 64 64 =
        (0x810000ff00000000ffffffffffffffff#128).extractLsb' 64 64 ∧
      7#8 ≠ 8#8 ∧ 9#8 ≠ 8#8 ∧ 15#8 ≠ 16#8 ∧ 17#8 ≠ 16#8 := by decide

theorem witness_StepRunsDecodedInstruction :
    (waiting [⟨7, reqA⟩, ⟨1, reqB⟩]).resetAsserted = false ∧
      (waiting [⟨7, reqA⟩, ⟨1, reqB⟩]).requests = ⟨7, reqA⟩ :: [⟨1, reqB⟩] ∧
      decode (Request.mk 7 reqA).word = .ok (.enumfwd 4#3 1#16) := by decide

/-- Each of the three ways to be reserved. -/
theorem witness_ReservedRequestsAnswerIllegalOp :
    (waiting [⟨7, reqB⟩]).resetAsserted = false ∧ (waiting [⟨7, reqB⟩]).requests = ⟨7, reqB⟩ :: [] ∧
      11 ≤ (reqB.extractLsb' 160 4).toNat ∧ ((0#164).extractLsb' 160 4).toNat = 0 ∧
      (9 ≤ ((9#4 ++ 5#3 ++ 0#157 : ReqWord).extractLsb' 160 4).toNat ∧
        5 ≤ ((9#4 ++ 5#3 ++ 0#157 : ReqWord).extractLsb' 157 3).toNat) := by decide

theorem witness_NoStepInResetOrWithoutRequest :
    (waiting [⟨7, reqA⟩]).assertReset.resetAsserted = true ∧
      ((waiting []).resetAsserted = false ∧ (waiting []).requests = []) := by decide

theorem witness_ReplyIsFunctionOfRequestAndCfg :
    (waiting [⟨7, reqA⟩]).resetAsserted = false ∧ (waiting [⟨7, reqA⟩]).requests = ⟨7, reqA⟩ :: [] := by decide

/-- A fault and then a lookup; and one word twice. -/
theorem witness_NothingIsLeftBehind :
    (waiting [⟨7, reqB⟩, ⟨1, reqA⟩]).resetAsserted = false ∧
      (waiting [⟨7, reqB⟩, ⟨1, reqA⟩]).requests = ⟨7, reqB⟩ :: ⟨1, reqA⟩ :: [] ∧
      (waiting [⟨7, reqA⟩, ⟨1, reqA⟩]).requests = ⟨7, reqA⟩ :: ⟨1, reqA⟩ :: [] ∧
      (Request.mk 7 reqA).word = (Request.mk 1 reqA).word := by decide

theorem witness_RunAnswersEveryRequestInOrder :
    (waiting [⟨7, reqB⟩, ⟨1, reqA⟩]).resetAsserted = false ∧
      (waiting [⟨7, reqB⟩, ⟨1, reqA⟩]).requests.length = 2 := by decide

/-- Two ports, two interleavings of the same two sequences. -/
theorem witness_ServiceOrderIsInvisible :
    let s := waiting [⟨7, reqB⟩, ⟨7, reqA⟩, ⟨1, reqA⟩]
    let s' := waiting [⟨1, reqA⟩, ⟨7, reqB⟩, ⟨7, reqA⟩]
    s.resetAsserted = false ∧ s'.resetAsserted = false ∧ s.cfg = s'.cfg ∧
      (∀ p, s.requestsOn p = s'.requestsOn p) ∧ (∀ p, s.repliesOn p = s'.repliesOn p) := by
  refine ⟨rfl, rfl, rfl, fun p => ?_, fun p => rfl⟩
  by_cases h7 : p = 7
  · subst h7; rfl
  · by_cases h1 : p = 1
    · subst h1; rfl
    · simp [State.requestsOn, waiting, Ne.symm h7, Ne.symm h1]

theorem witness_ConfigurationNeverChanges : ∃ t, step (waiting [⟨7, reqB⟩]) = .next t := ⟨_, rfl⟩

theorem witness_ResetSetsNothing : ∃ T, T = State.reset.cfg.adv ∨ T = State.reset.cfg.pub := ⟨_, .inl rfl⟩

theorem witness_StepKeepsRepliesLegal :
    ∃ t, RepliesLegal (waiting [⟨7, reqA⟩]) ∧ step (waiting [⟨7, reqA⟩]) = .next t := by
  refine ⟨_, ?_, rfl⟩
  simp only [RepliesLegal, waiting, List.mem_singleton, forall_eq]
  decide

theorem witness_EncsrcPacksTheRecord : (1#4 ++ 0#160 : ReqWord).extractLsb' 160 4 = 1#4 := by decide

theorem witness_EncsrcInRangeConcatenates :
    srcMax.type.toNat < 4 ∧ srcMax.dimension.toNat < 64 ∧ srcMax.id.toNat < 2 ^ 24 ∧
      srcMax.advertiser.toNat < 2 ^ 16 ∧ srcMax.publisher.toNat < 2 ^ 16 := by decide

theorem witness_DecsrcUnpacksTheRecord : (2#4 ++ 0#160 : ReqWord).extractLsb' 160 4 = 2#4 ∧ 7#8 ≠ 8#8 ∧ 9#8 ≠ 8#8 := by
  decide

theorem witness_SourceEncodeThenDecode :
    srcMax.type.toNat < 4 ∧ srcMax.dimension.toNat < 64 ∧ srcMax.id.toNat < 2 ^ 24 ∧
      srcMax.advertiser.toNat < 2 ^ 16 ∧ srcMax.publisher.toNat < 2 ^ 16 := by decide

theorem witness_EnctrgPacksTheRecord : (3#4 ++ 0#160 : ReqWord).extractLsb' 160 4 = 3#4 := by decide

theorem witness_EnctrgInRangeConcatenates :
    trgMax.type.toNat < 2 ^ 8 ∧ trgMax.id.toNat < 2 ^ 24 ∧ trgMax.size.toNat < 2 ^ 8 ∧
      trgMax.category.toNat < 2 ^ 8 ∧ trgMax.option.toNat < 2 ^ 16 := by decide

theorem witness_EncodersAreInjectiveInRangeOnly :
    (srcInRange srcMax = true ∧ ∃ w, Answers (.encsrc srcMax) (waiting []) w) ∧
      (trgInRange trgMax = true ∧ ∃ w, Answers (.enctrg trgMax) (waiting []) w) :=
  ⟨⟨by decide, _, rfl⟩, by decide, _, rfl⟩

theorem witness_DectrgUnpacksTheRecord : (4#4 ++ 0#160 : ReqWord).extractLsb' 160 4 = 4#4 ∧ 7#8 ≠ 8#8 ∧ 9#8 ≠ 8#8 := by
  decide

theorem witness_TriggerEncodeThenDecode :
    trgMax.type.toNat < 2 ^ 8 ∧ trgMax.id.toNat < 2 ^ 24 ∧ trgMax.size.toNat < 2 ^ 8 ∧
      trgMax.category.toNat < 2 ^ 8 ∧ trgMax.option.toNat < 2 ^ 16 := by decide

theorem witness_Hex64PrintsTwoDigitsPerByte :
    (5#4 ++ 0#160 : ReqWord).extractLsb' 160 4 = 5#4 ∧ 7#8 ≠ 8#8 ∧ 9#8 ≠ 8#8 := by decide

/-- One record, under different unexamined lanes. -/
theorem witness_Hex64SpellsTheRecord :
    ∃ w, Answers (.hex64 ⟨8#8, 0x0a0000000000000f#64 ++ 0#64⟩) (waiting []) w ∧
      Answers (.hex64 ⟨8#8, 0x0a0000000000000f#64 ++ 1#64⟩) (waiting []) w := ⟨_, rfl, rfl⟩

theorem witness_FmtsrcPrintsRecordInUpperHalf : (6#4 ++ 0#160 : ReqWord).extractLsb' 160 4 = 6#4 := by decide

theorem witness_FmttrgPrintsRecordInLowerHalf : (7#4 ++ 0#160 : ReqWord).extractLsb' 160 4 = 7#4 := by decide

/-- The right length and its neighbours; five valid name results, and one of five not valid. -/
theorem witness_DecbktSplitsAndLooksUpNames :
    (8#4 ++ 0#160 : ReqWord).extractLsb' 160 4 = 8#4 ∧ 15#8 ≠ 16#8 ∧ 17#8 ≠ 16#8 ∧
      ((0x10001#17).msb && (0x10001#17).msb && (0x10000#17).msb && (0x10001#17).msb && (0x10001#17).msb) = true ∧
      ((0x10001#17).msb && (0x10001#17).msb && (0x10000#17).msb && (0x10001#17).msb && (0x0FFFF#17).msb) = false := by
  decide

/-- Operands 2, 1, 0xff, 1, 0x100 and 0xc0, 0xbeef, 0x10, 0x20, 0x3040 (program P1), each enumerated field from its
own table. -/
theorem witness_EmittedKeyDecodesToItsRecords :
    let f : SrcOperands := ⟨2#32, 1#32, 0xff#32, 1#32, 0x100#32⟩
    let g : TrgOperands := ⟨0xc0#32, 0xbeef#32, 0x10#32, 0x20#32, 0x3040#32⟩
    let s := waiting []
    srcInRange f = true ∧ trgInRange g = true ∧
      Answers (.enumfwd 0#3 1#16) s (0#4 ++ 1#1 ++ f.type ++ 0#239) ∧
      Answers (.enumfwd 2#3 1#16) s (0#4 ++ 1#1 ++ f.dimension ++ 0#239) ∧
      Answers (.enumfwd 3#3 0#16) s (0#4 ++ 1#1 ++ f.advertiser ++ 0#239) ∧
      Answers (.enumfwd 4#3 1#16) s (0#4 ++ 1#1 ++ f.publisher ++ 0#239) ∧
      Answers (.enumfwd 1#3 1#16) s (0#4 ++ 1#1 ++ g.type ++ 0#239) :=
  ⟨rfl, rfl, rfl, rfl, rfl, rfl, rfl⟩

/-- The last entry of a table, the first position past it, and tables 5 and 7. -/
theorem witness_EnumfwdReadsTheEntry :
    let s := waiting []
    (reqA.extractLsb' 160 4 = 9#4 ∧ (reqA.extractLsb' 157 3).toNat ≤ 4) ∧
      selectTable s.cfg 4#3 = some cfgTest.pub ∧ cfgTest.pub[(1#16).toNat]? = some ⟨"pub1", 0x100⟩ ∧
      cfgTest.pub.length ≤ (2#16).toNat ∧ 5 ≤ (5#3).toNat ∧ 5 ≤ (7#3).toNat := by decide

theorem witness_EnumrevFindsTheEntry :
    let s := waiting []
    let w : ReqWord := 10#4 ++ 4#3 ++ 0#157
    (w.extractLsb' 160 4 = 10#4 ∧ (w.extractLsb' 157 3).toNat ≤ 4) ∧
      selectTable s.cfg 3#3 = some cfgTest.adv ∧ cfgTest.adv[1]? = some ⟨"adv1", 2⟩ ∧ 2 = (2#32).toNat ∧
      (∀ e ∈ cfgTest.adv, e.code ≠ (0x10002#32).toNat) ∧ 5 ≤ (5#3).toNat ∧ 5 ≤ (7#3).toNat := by decide

/-- The two answers that are equivalent, both given. -/
theorem witness_LookupsAreMutuallyInverse :
    Answers (.enumfwd 4#3 1#16) (waiting []) (0#4 ++ 1#1 ++ 0x100#32 ++ 0#239) ∧
      Answers (.enumrev 4#3 0x100#32) (waiting []) (0#4 ++ 1#1 ++ 1#16 ++ 0#255) := ⟨rfl, rfl⟩

theorem witness_ScanAndInverseMapAgree : Table.legal 4 sourceTypeTable = true ∧ rev sourceTypeTable 3 = some 2#16 := by
  decide

theorem witness_WrongLengthIsRejectedUnread : 0#8 ≠ 8#8 ∧ 7#8 ≠ 8#8 ∧ 255#8 ≠ 8#8 ∧ 15#8 ≠ 16#8 ∧ 17#8 ≠ 16#8 := by
  decide

/-- One word for each clause: codes 1, 5, 8 (right and wrong length), 9 and 10 (tables 4 and 5), 0 and 11. -/
theorem witness_StatusOfEveryRequest :
    let op : ReqWord → Nat := fun w => (w.extractLsb' 160 4).toNat
    op (1#4 ++ 0#160) = 1 ∧ (op (5#4 ++ 8#8 ++ 0#152) = 5 ∧ (5#4 ++ 8#8 ++ 0#152 : ReqWord).extractLsb' 152 8 = 8#8) ∧
      (op (8#4 ++ 16#8 ++ 0#152) = 8 ∧ (8#4 ++ 16#8 ++ 0#152 : ReqWord).extractLsb' 152 8 = 16#8) ∧
      op reqA = 9 ∧ op (10#4 ++ 5#3 ++ 0#157) = 10 ∧ op (0#4 ++ 0#160) = 0 ∧ op (11#4 ++ 0#160) = 11 := by decide

theorem witness_BigEndianBytesAndReadersAreInverse :
    [1#8, 2#8].length = 2 ∧ [1#8, 2#8, 3#8, 4#8].length = 4 ∧
      [1#8, 2#8, 3#8, 4#8, 5#8, 6#8, 7#8, 8#8].length = 8 := by decide

/-- The last two bytes of a record; offset 5 lies below them, and offset 8 above. -/
theorem witness_MemWriteSetsOnlyItsBytes : 6 + 2 ≤ recordBuffer.length ∧ 1 < 2 ∧ 5 < 6 ∧ 6 + 2 ≤ 8 := by decide

theorem witness_StepTakesTheConfigurationAsParameter :
    (waiting [⟨7, reqB⟩, ⟨1, reqA⟩]).toPorts.resetAsserted = false ∧
      (waiting [⟨7, reqB⟩, ⟨1, reqA⟩]).toPorts.requests = ⟨7, reqB⟩ :: [⟨1, reqA⟩] := by decide

end Sys2Proof.Tests
end

section
/-! The configuration and the other parts of the state a step or a host action keeps (00_scope.md R11, R20). -/

namespace Sys2Proof.Machine

/-- A step that completes was taken out of reset: it took the first waiting request and delivered one word on that
request's port (R20; notes/assumptions/2.md). -/
theorem exists_request_of_step_eq_next {s t : State} (h : step s = .next t) :
    ∃ r rest w, s.resetAsserted = false ∧ s.requests = r :: rest ∧ t = (s.accept r rest).deliver w := by
  obtain ⟨-, hfault⟩ | ⟨-, -, hfault⟩ | ⟨r, rest, w, hreset, hrequests, hnext⟩ := step_cases s
  · simp [hfault] at h
  · simp [hfault] at h
  · exact ⟨r, rest, w, hreset, hrequests, by simpa [hnext, eq_comm] using h⟩

/-- Presenting a request keeps the configuration, whether the request is accepted or not (R11, R272). -/
@[simp] theorem State.present_cfg (s : State) (r : Request) : (s.present r).cfg = s.cfg := by
  cases h : s.resetAsserted with
  | true => rw [s.present_of_asserted r h]
  | false => rw [s.present_of_released r h]

/-- Settles O14: a step only accepts the first request and delivers a reply, and neither of these, nor any host action,
writes the configuration. -/
theorem configurationNeverChanges : Obligations.ConfigurationNeverChanges := by
  refine ⟨fun s t h => ?_, fun s r => ⟨s.present_cfg r, s.assertReset_cfg, s.releaseReset_cfg⟩⟩
  obtain ⟨r, rest, w, -, hrequests, rfl⟩ := exists_request_of_step_eq_next h
  exact ⟨rfl, rfl, by simp [hrequests], ⟨r.port, w⟩, rfl⟩

end Sys2Proof.Machine
end

section
/-! A step's reply is a function of the request word and the configuration (20_memory.md R73, 60_exceptions.md R240). -/

namespace Sys2Proof.Machine

/-- Every request word has its answer (R21 decision D1). -/
theorem exists_akc_eq_some (cfg : Cfg) (word : ReqWord) : ∃ w, akc cfg word = some w := by
  obtain ⟨w, hw, -⟩ := akc_spec cfg word
  exact ⟨w, hw⟩

/-- Out of reset, a step takes the first waiting request and delivers the word `akc` names, whatever the ports hold
besides. -/
theorem step_of_akc {s : State} {r : Request} {rest : List Request} {w : RespWord} (hakc : akc s.cfg r.word = some w)
    (hreset : s.resetAsserted = false) (hrequests : s.requests = r :: rest) :
    step s = .next ((s.accept r rest).deliver w) := by
  obtain ⟨w', hakc', hanswer⟩ := akc_spec s.cfg r.word
  obtain rfl : w = w' := Option.some.inj (hakc.symm.trans hakc')
  rw [step_of_request hreset hrequests, hanswer _ (s.accept_cfg r rest)]

/-- Settles O11: the first step keeps the configuration, and the second request's word is `akc` of that configuration
and its own word, with the first request sent before it or not. -/
theorem nothingIsLeftBehind : Obligations.NothingIsLeftBehind := by
  intro s r₀ r rest hreset hrequests
  obtain ⟨w₀, hw₀⟩ := exists_akc_eq_some s.cfg r₀.word
  obtain ⟨w, hw⟩ := exists_akc_eq_some s.cfg r.word
  refine ⟨w₀, w, (s.accept r₀ (r :: rest)).deliver w₀, step_of_akc hw₀ hreset hrequests, ?_, ?_, fun hword => ?_⟩
  · rw [step_of_akc (s := (s.accept r₀ (r :: rest)).deliver w₀) hw hreset rfl]
    simp [State.accept, State.deliver]
  · exact step_of_akc (s := { s with requests := r :: rest }) hw hreset rfl
  · rw [hword, hw] at hw₀
    exact (Option.some.inj hw₀).symm

end Sys2Proof.Machine
end

section
/-! The source record decoder, and its round trip with the encoder (40_source_codec.md R133, R138, R139, R141). -/

namespace Sys2Proof.Machine

open Sys2Proof.Laws

/-- Operation code 0x2 is DECSRC (R91). -/
theorem decode_eq_decsrc {w : ReqWord} (h : opField w = 2#4) : decode w = .ok (.decsrc (qbuf w)) := by
  have hc : Opcode.ofCode (opField w) = some .decsrc := by rw [h]; rfl
  simp [decode, hc]

/-- The word of an RSRC payload under status OK, field by field (R103, R106). -/
theorem respWord_ok_rsrc (g : SrcFields) :
    respWord .ok (.rsrc g) =
      0#4 ++ g.type ++ g.dimension ++ g.id ++ g.advertiser ++ g.publisher ++ 0#208 := by
  simp only [respWord, Status.code, Payload.bits, srcBits, concat_assoc, BitVec.cast_eq]

/-- DECSRC of length 8 answers OK with the fields of lanes 0 to 7 (R138). -/
theorem answers_decsrc (lanes : BitVec 128) (s : State) :
    Answers (.decsrc ⟨8#8, lanes⟩) s (respWord .ok (.rsrc (decodeSrc (laneBytes lanes 8) 0))) :=
  withLength_of_eq (b := ⟨8#8, lanes⟩) _ s rfl

/-- DECSRC of any other length answers LengthMismatch (R139). -/
theorem answers_decsrc_of_ne {len : Byte} (lanes : BitVec 128) (s : State) (h : len ≠ 8#8) :
    Answers (.decsrc ⟨len, lanes⟩) s (1#4 ++ (8#8 ++ len ++ 0#256)) :=
  withLength_of_ne _ s h

/-- ENCSRC answers OK with the 64-bit value of its record (R131). -/
theorem answers_encsrc (f : SrcOperands) (s : State) :
    Answers (.encsrc f) s (0#4 ++ be64 (encodeSrc f) 0 ++ 0#208) :=
  Answers.congr (w := respWord .ok (.rrec (be64 (encodeSrc f) 0))) rfl (by
    simp only [respWord, Status.code, Payload.bits, concat_assoc, BitVec.cast_eq])

/-- The source fields of lanes 0 to 7 as cuts of the 128 lane bits. -/
theorem decodeSrc_laneBytes (lanes : BitVec 128) :
    decodeSrc (laneBytes lanes 8) 0 =
      ⟨lanes.extractLsb' 126 2, lanes.extractLsb' 120 6, lanes.extractLsb' 96 24, lanes.extractLsb' 80 16,
        lanes.extractLsb' 64 16⟩ := by
  simp [decodeSrc, be32_laneBytes, be16_laneBytes, extract_extract]

/-- Decoding the concatenation of five fields returns them, whatever lanes 8 to 15 hold. -/
theorem decodeSrc_laneBytes_srcBits (g : SrcFields) (rest : BitVec 64) :
    decodeSrc (laneBytes (srcBits g ++ rest) 8) 0 = g := by
  simp [decodeSrc_laneBytes, srcBits, extract_concat_high, extract_concat_low]

/-- Each operand of a source record cut to its declared width (R130). -/
def cutSrc (f : SrcOperands) : SrcFields :=
  ⟨f.type.setWidth 2, f.dimension.setWidth 6, f.id.setWidth 24, f.advertiser.setWidth 16, f.publisher.setWidth 16⟩

/-- The first word of an in-range source record is the concatenation of its three fields: the shifted parts do not
overlap (R133). -/
theorem sourceWord_of_inRange {f : SrcOperands} (htype : f.type.toNat < 4) (hdim : f.dimension.toNat < 64)
    (hid : f.id.toNat < 2 ^ 24) :
    BitVec.ofNat 32 ((((f.type.toNat <<< 6) ||| f.dimension.toNat) <<< 24) ||| f.id.toNat) =
      f.type.setWidth 2 ++ f.dimension.setWidth 6 ++ f.id.setWidth 24 := by
  apply BitVec.eq_of_toNat_eq
  simp only [BitVec.toNat_append, BitVec.toNat_setWidth, BitVec.toNat_ofNat, Nat.mod_eq_of_lt hid,
    Nat.mod_eq_of_lt (show f.type.toNat < 2 ^ 2 from htype), Nat.mod_eq_of_lt (show f.dimension.toNat < 2 ^ 6 from hdim)]
  rw [← Nat.shiftLeft_add_eq_or_of_lt hid, ← Nat.shiftLeft_add_eq_or_of_lt (show f.dimension.toNat < 2 ^ 6 from hdim),
    Nat.shiftLeft_eq, Nat.shiftLeft_eq]
  omega

/-- The record of in-range operands is the concatenation of the cut fields (R133). -/
theorem be64_encodeSrc_of_inRange {f : SrcOperands} (htype : f.type.toNat < 4) (hdim : f.dimension.toNat < 64)
    (hid : f.id.toNat < 2 ^ 24) : be64 (encodeSrc f) 0 = srcBits (cutSrc f) := by
  rw [encodeSrc_eq, be64_sourceLayout, sourceWord_of_inRange htype hdim hid]
  simp only [extract_low_eq_setWidth, srcBits, cutSrc]

/-- Settles O22: the loads of the decoder read the lanes in order, and on another length no lane is read. -/
theorem decsrcUnpacksTheRecord : Obligations.DecsrcUnpacksTheRecord := by
  refine ⟨fun w h => decode_eq_decsrc h, fun len lanes s => ⟨?_, fun hlen => ?_⟩⟩
  · rintro rfl
    refine (answers_decsrc lanes s).congr ?_
    rw [respWord_ok_rsrc]
    simp [decodeSrc, be32, be16, byteAt_laneBytes, lane]
  · exact (answers_decsrc_of_ne lanes s hlen).congr (by simp only [concat_assoc, BitVec.cast_eq])

/-- Settles O23: the record of in-range operands is the concatenation of the operands cut to their widths, decoding
returns the cut fields, and a cut changes no in-range number. -/
theorem sourceEncodeThenDecode : Obligations.SourceEncodeThenDecode := by
  intro f s s' rest htype hdim hid hadv hpub
  refine ⟨srcBits (cutSrc f), (cutSrc f).type, (cutSrc f).dimension, (cutSrc f).id, (cutSrc f).advertiser,
    (cutSrc f).publisher, ?_, ?_, ?_⟩
  · rw [← be64_encodeSrc_of_inRange htype hdim hid]
    exact answers_encsrc f s
  · have h := answers_decsrc (srcBits (cutSrc f) ++ rest) s'
    rwa [decodeSrc_laneBytes_srcBits, respWord_ok_rsrc] at h
  · simp only [cutSrc, BitVec.toNat_setWidth]
    exact ⟨Nat.mod_eq_of_lt htype, Nat.mod_eq_of_lt hdim, Nat.mod_eq_of_lt hid, Nat.mod_eq_of_lt hadv,
      Nat.mod_eq_of_lt hpub⟩

end Sys2Proof.Machine
end

section
/-! The trigger record decoder, and its round trip with the encoder (41_trigger_codec.md R153, R158, R161). -/

namespace Sys2Proof.Machine

open Sys2Proof.Laws

/-- Operation code 0x4 is DECTRG (R91). -/
theorem decode_eq_dectrg {w : ReqWord} (h : opField w = 4#4) : decode w = .ok (.dectrg (qbuf w)) := by
  have hc : Opcode.ofCode (opField w) = some .dectrg := by rw [h]; rfl
  simp [decode, hc]

/-- The word of an RTRG payload under status OK, field by field (R103, R107). -/
theorem respWord_ok_rtrg (g : TrgFields) :
    respWord .ok (.rtrg g) = 0#4 ++ g.type ++ g.id ++ g.size ++ g.category ++ g.option ++ 0#208 := by
  simp only [respWord, Status.code, Payload.bits, trgBits, concat_assoc, BitVec.cast_eq]

/-- DECTRG of length 8 answers OK with the fields of lanes 0 to 7 (R158). -/
theorem answers_dectrg (lanes : BitVec 128) (s : State) :
    Answers (.dectrg ⟨8#8, lanes⟩) s (respWord .ok (.rtrg (decodeTrg (laneBytes lanes 8) 0))) :=
  withLength_of_eq (b := ⟨8#8, lanes⟩) _ s rfl

/-- DECTRG of any other length answers LengthMismatch (R158). -/
theorem answers_dectrg_of_ne {len : Byte} (lanes : BitVec 128) (s : State) (h : len ≠ 8#8) :
    Answers (.dectrg ⟨len, lanes⟩) s (1#4 ++ (8#8 ++ len ++ 0#256)) :=
  withLength_of_ne _ s h

/-- ENCTRG answers OK with the 64-bit value of its record (R151). -/
theorem answers_enctrg (f : TrgOperands) (s : State) :
    Answers (.enctrg f) s (0#4 ++ be64 (encodeTrg f) 0 ++ 0#208) :=
  Answers.congr (w := respWord .ok (.rrec (be64 (encodeTrg f) 0))) rfl (by
    simp only [respWord, Status.code, Payload.bits, concat_assoc, BitVec.cast_eq])

/-- The trigger fields of lanes 0 to 7 as cuts of the 128 lane bits. -/
theorem decodeTrg_laneBytes (lanes : BitVec 128) :
    decodeTrg (laneBytes lanes 8) 0 =
      ⟨lanes.extractLsb' 120 8, lanes.extractLsb' 96 24, lanes.extractLsb' 88 8, lanes.extractLsb' 80 8,
        lanes.extractLsb' 64 16⟩ := by
  simp [decodeTrg, be32_laneBytes, byteAt_laneBytes, be16_laneBytes, lane, extract_extract]

/-- Decoding the concatenation of five trigger fields returns them, whatever lanes 8 to 15 hold. -/
theorem decodeTrg_laneBytes_trgBits (g : TrgFields) (rest : BitVec 64) :
    decodeTrg (laneBytes (trgBits g ++ rest) 8) 0 = g := by
  simp [decodeTrg_laneBytes, trgBits, extract_concat_high, extract_concat_low]

/-- Each operand of a trigger record cut to its declared width (R150). -/
def cutTrg (f : TrgOperands) : TrgFields :=
  ⟨f.type.setWidth 8, f.id.setWidth 24, f.size.setWidth 8, f.category.setWidth 8, f.option.setWidth 16⟩

/-- The first word of an in-range trigger record is `type` above `id`: the shifted parts do not overlap (R153). -/
theorem triggerWord_of_inRange {f : TrgOperands} (htype : f.type.toNat < 2 ^ 8) (hid : f.id.toNat < 2 ^ 24) :
    BitVec.ofNat 32 ((f.type.toNat <<< 24) ||| f.id.toNat) = f.type.setWidth 8 ++ f.id.setWidth 24 := by
  have hword : (f.type.setWidth 8 ++ f.id.setWidth 24).toNat = (f.type.toNat <<< 24) ||| f.id.toNat := by
    rw [BitVec.toNat_append, BitVec.toNat_setWidth, BitVec.toNat_setWidth, Nat.mod_eq_of_lt htype,
      Nat.mod_eq_of_lt hid]
  rw [← hword, BitVec.ofNat_toNat, BitVec.setWidth_eq]

/-- The record of in-range operands is the concatenation of the cut fields (R153). -/
theorem be64_encodeTrg_of_inRange {f : TrgOperands} (htype : f.type.toNat < 2 ^ 8) (hid : f.id.toNat < 2 ^ 24) :
    be64 (encodeTrg f) 0 = trgBits (cutTrg f) := by
  rw [encodeTrg_eq, be64_triggerLayout, triggerWord_of_inRange htype hid]
  simp only [extract_low_eq_setWidth, trgBits, cutTrg]

/-- Settles O30: the loads of the decoder read the lanes in order, and on another length no lane is read. -/
theorem dectrgUnpacksTheRecord : Obligations.DectrgUnpacksTheRecord := by
  refine ⟨fun w h => decode_eq_dectrg h, fun len lanes s => ⟨?_, fun hlen => ?_⟩⟩
  · rintro rfl
    refine (answers_dectrg lanes s).congr ?_
    rw [respWord_ok_rtrg]
    simp [decodeTrg, be32, be16, byteAt_laneBytes, lane]
  · exact (answers_dectrg_of_ne lanes s hlen).congr (by simp only [concat_assoc, BitVec.cast_eq])

/-- Settles O31: the record of in-range operands is the concatenation of the operands cut to their widths, decoding
returns the cut fields, and a cut changes no in-range number. -/
theorem triggerEncodeThenDecode : Obligations.TriggerEncodeThenDecode := by
  intro f s s' rest htype hid hsize hcat hopt
  refine ⟨trgBits (cutTrg f), (cutTrg f).type, (cutTrg f).id, (cutTrg f).size, (cutTrg f).category,
    (cutTrg f).option, ?_, ?_, ?_⟩
  · rw [← be64_encodeTrg_of_inRange htype hid]
    exact answers_enctrg f s
  · have h := answers_dectrg (trgBits (cutTrg f) ++ rest) s'
    rwa [decodeTrg_laneBytes_trgBits, respWord_ok_rtrg] at h
  · simp only [cutTrg, BitVec.toNat_setWidth]
    exact ⟨Nat.mod_eq_of_lt htype, Nat.mod_eq_of_lt hid, Nat.mod_eq_of_lt hsize, Nat.mod_eq_of_lt hcat,
      Nat.mod_eq_of_lt hopt⟩

end Sys2Proof.Machine
end

section
/-! The table selection of a lookup, and the reverse lookup (44_enum_lookup.md R214, R216, R217). -/

namespace Sys2Proof.Machine

open Sys2Proof.Laws

/-- On a selector that names a table the lookup runs on that table. -/
theorem withTable_of_some {sel : BitVec 3} {T : Table} {s : State} (op : BitVec 4) (run : Table → State → Result)
    (h : selectTable s.cfg sel = some T) : withTable op sel run s = run T s := by
  simp [withTable, h]

/-- On a reserved selector it is IllegalOp, whatever the lookup (R101). -/
theorem withTable_of_reserved {sel : BitVec 3} (op : BitVec 4) (run : Table → State → Result) (s : State)
    (h : 5 ≤ sel.toNat) : withTable op sel run s = .next (s.deliver (3#4 ++ (op ++ 0#268))) := by
  simp [withTable, (selectTable_eq_none_iff s.cfg sel).mpr h, raise, respond, respWord, Status.code, Payload.bits]

/-- Operation code 0xA with a table in range is ENUMREV (R91, R101). -/
theorem decode_eq_enumrev {w : ReqWord} (hop : opField w = 10#4) (htable : (qenumTable w).toNat ≤ 4) :
    decode w = .ok (.enumrev (qenumTable w) (qenumCode w)) := by
  have hc : Opcode.ofCode (opField w) = some .enumrev := by rw [hop]; rfl
  simp [decode, hc, tableInRange, htable]

/-- The meaning of ENUMREV is `execEnumrev` (R216). -/
theorem exec_enumrev (table : BitVec 3) (code : Operand) (s : State) :
    exec (.enumrev table code) s = execEnumrev table code s := rfl

/-- ENUMREV answers OK with the identifier `rev` finds (R216). -/
theorem answers_enumrev_of_found {table : BitVec 3} {code : Operand} {s : State} {T : Table} {i : NameId}
    (hT : selectTable s.cfg table = some T) (hrev : rev T code.toNat = some i) :
    Answers (.enumrev table code) s (0#4 ++ 1#1 ++ i ++ 0#255) := by
  have h : Answers (.enumrev table code) s (respWord .ok (.renumr (some i))) := by
    rw [Answers, exec_enumrev, execEnumrev, withTable_of_some _ _ hT, hrev]
    rfl
  exact h.congr (by simp only [respWord, Status.code, Payload.bits, nameResultBits, concat_assoc, BitVec.cast_eq])

/-- ENUMREV answers LookupFail with identifier 0xFFFF where `rev` finds none (R216, R111). -/
theorem answers_enumrev_of_not_found {table : BitVec 3} {code : Operand} {s : State} {T : Table}
    (hT : selectTable s.cfg table = some T) (hrev : rev T code.toNat = none) :
    Answers (.enumrev table code) s (2#4 ++ 0#1 ++ 0xFFFF#16 ++ 0#255) := by
  have h : Answers (.enumrev table code) s (respWord .lookupFail (.renumr none)) := by
    rw [Answers, exec_enumrev, execEnumrev, withTable_of_some _ _ hT, hrev]
    rfl
  exact h.congr (by simp only [respWord, Status.code, Payload.bits, nameResultBits, concat_assoc, BitVec.cast_eq])

/-- ENUMREV of a reserved table answers IllegalOp (R101, R216). -/
theorem answers_enumrev_of_reserved {table : BitVec 3} (code : Operand) (s : State) (h : 5 ≤ table.toNat) :
    Answers (.enumrev table code) s (3#4 ++ (10#4 ++ 0#268)) := by
  rw [Answers, exec_enumrev, execEnumrev, withTable_of_reserved _ _ s h]
  rfl

/-- Settles O47: every table a selector names is legal, so its codes differ and `rev` finds the one entry of the code,
whose position is below 65535. -/
theorem enumrevFindsTheEntry : Obligations.EnumrevFindsTheEntry := by
  refine ⟨fun w hop htable => decode_eq_enumrev hop htable, fun table code s => ⟨fun T hT => ⟨?_, ?_⟩, fun h => ?_⟩⟩
  · intro i e hi hcode
    obtain ⟨hcodes, -, -, hlength⟩ := Table.legal_iff.mp (selectTable_legal hT)
    obtain ⟨hlt, -⟩ := List.getElem?_eq_some_iff.mp hi
    exact ⟨answers_enumrev_of_found hT (hcode ▸ rev_of_entry hcodes hi), by omega⟩
  · intro hnone
    exact answers_enumrev_of_not_found hT (rev_eq_none_iff.mpr hnone)
  · exact (answers_enumrev_of_reserved code s h).congr (by simp only [concat_assoc, BitVec.cast_eq])

end Sys2Proof.Machine
end

section
/-! Decoding and encoding of request words (30_encoding.md R90 to R102, R115). -/

namespace Sys2Proof.Machine

open Sys2Proof.Laws

/-- The instruction of operation `c` with the operands its payload format reads from `w` (R94, R95, R97, R100). -/
def instrOf (c : Opcode) (w : ReqWord) : Instr :=
  match c with
  | .encsrc => .encsrc (qsrc w)
  | .decsrc => .decsrc (qbuf w)
  | .enctrg => .enctrg (qtrg w)
  | .dectrg => .dectrg (qbuf w)
  | .hex64 => .hex64 (qbuf w)
  | .fmtsrc => .fmtsrc (qsrc w)
  | .fmttrg => .fmttrg (qtrg w)
  | .decbkt => .decbkt (qbuf w)
  | .enumfwd => .enumfwd (qenumTable w) (qenumName w)
  | .enumrev => .enumrev (qenumTable w) (qenumCode w)

@[simp] theorem opcode_instrOf (c : Opcode) (w : ReqWord) : (instrOf c w).opcode = c := by cases c <;> rfl

/-- Decoding by the operation the code names: the operands are read, and only well-formedness is checked. -/
theorem decode_of_code {c : Opcode} {w : ReqWord} (h : opField w = c.code) :
    decode w = if (instrOf c w).wf then .ok (instrOf c w) else .error (.reservedTable (opField w) (qenumTable w)) := by
  have hc : Opcode.ofCode (opField w) = some c := h ▸ ofCode_code c
  cases c <;> simp only [decode, hc] <;> rfl

/-- Decoding a word whose code is reserved (R93). -/
theorem decode_of_reservedOp {w : ReqWord} (h : (opField w).toNat = 0 ∨ 11 ≤ (opField w).toNat) :
    decode w = .error (.reservedOp (opField w)) := by
  simp [decode, (ofCode_eq_none_iff _).mpr h]

/-- Every code is reserved or names an operation (R91, R93). -/
theorem reserved_or_exists_code (op : BitVec 4) : (op.toNat = 0 ∨ 11 ≤ op.toNat) ∨ ∃ c : Opcode, op = c.code := by
  cases h : Opcode.ofCode op with
  | none => exact .inl ((ofCode_eq_none_iff op).mp h)
  | some c => exact .inr ⟨c, (code_of_ofCode op c h).symm⟩

/-- The codes of operations are 1 to 10 (R91). -/
theorem code_range (c : Opcode) : 1 ≤ c.code.toNat ∧ c.code.toNat ≤ 10 := by cases c <;> decide

/-- What decoding gives, it read from the word by the operation's payload format, and it is well formed. -/
theorem instrOf_of_decode {w : ReqWord} {i : Instr} (h : decode w = .ok i) :
    opField w = i.opcode.code ∧ i = instrOf i.opcode w ∧ i.wf = true := by
  have hop : opField w = i.opcode.code := (opcode_of_decode h).symm
  rw [decode_of_code hop] at h
  split at h
  · next hwf =>
    have hi : instrOf i.opcode w = i := by simpa using h
    exact ⟨hop, hi.symm, hi ▸ hwf⟩
  · cases h

/-! ### Encode, then decode -/

/-- An encoded instruction carries its operation's code in `REQ[163:160]`. -/
theorem opField_encode (i : Instr) : opField (encode i) = i.opcode.code := by
  cases i with
  | encsrc f => exact EncodedOp.encsrc f
  | decsrc b => exact EncodedOp.decsrc b
  | enctrg f => exact EncodedOp.enctrg f
  | dectrg b => exact EncodedOp.dectrg b
  | hex64 b => exact EncodedOp.hex64 b
  | fmtsrc f => exact EncodedOp.fmtsrc f
  | fmttrg f => exact EncodedOp.fmttrg f
  | decbkt b => exact EncodedOp.decbkt b
  | enumfwd table nameId => exact EncodedOp.enumfwd table nameId
  | enumrev table code => exact EncodedOp.enumrev table code

/-- The payload an instruction is encoded into reads back as its operands. -/
theorem instrOf_encode (i : Instr) : instrOf i.opcode (encode i) = i := by
  cases i with
  | enumfwd table nameId =>
    simp [instrOf, Instr.opcode, encode, qenumTable, qenumName, extract_concat_high, extract_concat_low]
  | enumrev table code =>
    simp [instrOf, Instr.opcode, encode, qenumTable, qenumCode, extract_concat_high, extract_concat_low]
  | _ => simp [instrOf, Instr.opcode, encode]

/-- Settles O2: the encoded word carries the operation's code and reads back as the operands, and well-formedness is all
that decoding checks. -/
theorem decodeOfEncodeIsIdentity : Obligations.DecodeOfEncodeIsIdentity := by
  intro i hwf
  rw [decode_of_code (opField_encode i), instrOf_encode, if_pos hwf]

/-! ### Decode, then encode -/

/-- Clearing the `k` low bits of a word keeps the field above them. -/
theorem shiftRight_shiftLeft_eq_concat {a k : Nat} (w : BitVec (a + k)) :
    (w >>> k) <<< k = w.extractLsb' k a ++ 0#k := by
  apply BitVec.eq_of_getLsbD_eq
  intro i hi
  rw [getLsbD_concat]
  by_cases hik : i < k
  · simp [hik]
  · simp [hik, hi, show i - k < a by omega, show k + (i - k) = i by omega]

/-- The operands of operation `c` encode to the word they were read from, its ignored bits cleared (R94 to R102). -/
theorem encode_instrOf {c : Opcode} {w : ReqWord} (h : opField w = c.code) :
    encode (instrOf c w) = (w >>> c.ignoredBits) <<< c.ignoredBits := by
  have hall : opField w ++ w.extractLsb' 0 160 = w := split_concat (v := 4) (w := 160) w
  have hbuf : opField w ++ (w.extractLsb' 24 136 ++ 0#24) = (w >>> 24) <<< 24 := by
    rw [shiftRight_shiftLeft_eq_concat (a := 140) (k := 24) w]
    simp only [opField, concat_assoc, BitVec.cast_eq, extract_join]
  have hfwd : opField w ++ qenumTable w ++ qenumName w ++ 0#141 = (w >>> 141) <<< 141 := by
    rw [shiftRight_shiftLeft_eq_concat (a := 23) (k := 141) w]
    simp only [opField, qenumTable, qenumName, extract_join]
  have hrev : opField w ++ qenumTable w ++ qenumCode w ++ 0#125 = (w >>> 125) <<< 125 := by
    rw [shiftRight_shiftLeft_eq_concat (a := 39) (k := 125) w]
    simp only [opField, qenumTable, qenumCode, extract_join]
  cases c <;>
    simp only [instrOf, encode, Instr.opcode, Opcode.ignoredBits, qsrcBits_qsrc, qtrgBits_qtrg, qbufBits_qbuf, ← h,
      BitVec.ushiftRight_zero, BitVec.shiftLeft_zero, hall, hbuf, hfwd, hrev]

/-- Settles O3: a decoded instruction was read from its word by its payload format, which the encoder fills again. -/
theorem encodeOfDecodeClearsIgnoredBits : Obligations.EncodeOfDecodeClearsIgnoredBits := by
  intro w i h
  obtain ⟨hop, hi, hwf⟩ := instrOf_of_decode h
  refine ⟨hwf, hop.symm, ?_⟩
  conv_lhs => rw [hi]
  exact encode_instrOf hop

/-! ### The two causes of IllegalOp -/

/-- An operation below code 9 has no table, so it is well formed; a lookup is so exactly on a table below 5 (R101). -/
theorem instrOf_wf_iff {c : Opcode} {w : ReqWord} (h : opField w = c.code) :
    (instrOf c w).wf = true ↔ (9 ≤ (opField w).toNat → (qenumTable w).toNat ≤ 4) := by
  rw [h]
  cases c <;> simp [instrOf, Instr.wf, tableInRange, Opcode.code]

/-- A lookup of a reserved table decodes to none (R101). -/
theorem decode_of_reservedTable {w : ReqWord} (hop : (opField w).toNat = 9 ∨ (opField w).toNat = 10)
    (htable : 5 ≤ (qenumTable w).toNat) : decode w = .error (.reservedTable (opField w) (qenumTable w)) := by
  obtain hres | ⟨c, hc⟩ := reserved_or_exists_code (opField w)
  · omega
  · have hwf : ¬(instrOf c w).wf = true := by rw [instrOf_wf_iff hc]; omega
    rw [decode_of_code hc, if_neg hwf]

/-- Settles O4: a code that is not reserved names an operation, and of those only the lookups can be ill formed. -/
theorem everyWordIsOperationOrIllegal : Obligations.EveryWordIsOperationOrIllegal := by
  intro w
  refine ⟨decode_of_reservedOp, decode_of_reservedTable, fun hlow hhigh htable => ?_⟩
  obtain hres | ⟨c, hc⟩ := reserved_or_exists_code (opField w)
  · exact absurd (show 1 ≤ (opField w).toNat ∧ (opField w).toNat ≤ 10 from ⟨hlow, hhigh⟩) (by omega)
  · have hwf : (instrOf c w).wf = true := (instrOf_wf_iff hc).mpr htable
    exact ⟨instrOf c w, by rw [decode_of_code hc, if_pos hwf], by rw [opcode_instrOf]; exact hc.symm, hwf⟩

/-- Settles O1: each printed word is evaluated. -/
theorem printedRequestWordsDecode : Obligations.PrintedRequestWordsDecode := by
  unfold Obligations.PrintedRequestWordsDecode
  decide

end Sys2Proof.Machine
end

section
/-! The forward lookup, the complete reverse lookup in the printed tables, and the two lookups as inverses of each other
(44_enum_lookup.md R213 to R221; 10_state.md R40 to R49). -/

namespace Sys2Proof.Machine

open Sys2Proof.Laws

/-- The meaning of ENUMFWD is `execEnumfwd` (R215). -/
theorem exec_enumfwd (table : BitVec 3) (nameId : NameId) (s : State) :
    exec (.enumfwd table nameId) s = execEnumfwd table nameId s := rfl

/-- ENUMFWD answers OK with the code `fwd` finds (R215). -/
theorem answers_enumfwd_of_found {table : BitVec 3} {nameId : NameId} {s : State} {T : Table} {c : Nat}
    (hT : selectTable s.cfg table = some T) (hfwd : fwd T nameId = some c) :
    Answers (.enumfwd table nameId) s (0#4 ++ 1#1 ++ BitVec.ofNat 32 c ++ 0#239) := by
  have h : Answers (.enumfwd table nameId) s (respWord .ok (.renumf (some c))) := by
    rw [Answers, exec_enumfwd, execEnumfwd, withTable_of_some _ _ hT, hfwd]
    rfl
  exact h.congr (by simp only [respWord, Status.code, Payload.bits, codeResultBits, concat_assoc, BitVec.cast_eq])

/-- ENUMFWD answers LookupFail with code 0xFFFFFFFF where `fwd` finds none (R215, R113). -/
theorem answers_enumfwd_of_not_found {table : BitVec 3} {nameId : NameId} {s : State} {T : Table}
    (hT : selectTable s.cfg table = some T) (hfwd : fwd T nameId = none) :
    Answers (.enumfwd table nameId) s (2#4 ++ 0#1 ++ 0xFFFFFFFF#32 ++ 0#239) := by
  have h : Answers (.enumfwd table nameId) s (respWord .lookupFail (.renumf none)) := by
    rw [Answers, exec_enumfwd, execEnumfwd, withTable_of_some _ _ hT, hfwd]
    rfl
  exact h.congr (by simp only [respWord, Status.code, Payload.bits, codeResultBits, concat_assoc, BitVec.cast_eq])

/-- ENUMFWD of a reserved table answers IllegalOp (R101, R215). -/
theorem answers_enumfwd_of_reserved {table : BitVec 3} (nameId : NameId) (s : State) (h : 5 ≤ table.toNat) :
    Answers (.enumfwd table nameId) s (3#4 ++ (9#4 ++ 0#268)) := by
  rw [Answers, exec_enumfwd, execEnumfwd, withTable_of_reserved _ _ s h]
  rfl

/-- The codes of a selected table fit 16 bits (R41). -/
theorem entry_code_lt {cfg : Cfg} {table : BitVec 3} {T : Table} {e : Entry} (hT : selectTable cfg table = some T)
    (he : e ∈ T) : e.code < 65536 := by
  obtain ⟨-, -, hcodes, -⟩ := Table.legal_iff.mp (selectTable_legal hT)
  exact hcodes e he

/-- Settles O46: `fwd` reads the position, and a table has at most 65535 entries, so 0xFFFF is past its end. -/
theorem enumfwdReadsTheEntry : Obligations.EnumfwdReadsTheEntry := by
  refine ⟨fun w hop htable => ?_, fun table nameId s =>
    ⟨fun T hT => ⟨fun e he => ?_, fun hpast => ?_, ?_⟩, fun h => ?_⟩⟩
  · have hop' : opField w = Opcode.enumfwd.code := hop
    have hwf : (instrOf .enumfwd w).wf = true := (instrOf_wf_iff hop').mpr fun _ => htable
    rw [decode_of_code hop', if_pos hwf]
    rfl
  · have hcode := entry_code_lt hT (List.mem_of_getElem? he)
    exact ⟨answers_enumfwd_of_found hT (by simp [fwd, he]), by omega⟩
  · exact answers_enumfwd_of_not_found hT (by simp [fwd, hpast])
  · rintro rfl
    obtain ⟨-, -, -, hlength⟩ := Table.legal_iff.mp (selectTable_legal hT)
    exact hlength
  · exact (answers_enumfwd_of_reserved nameId s h).congr (by simp only [concat_assoc, BitVec.cast_eq])

/-! ### The lookups as inverses -/

/-- A table is selected or the selector is reserved. -/
theorem selectTable_cases (cfg : Cfg) (table : BitVec 3) : (∃ T, selectTable cfg table = some T) ∨ 5 ≤ table.toNat := by
  cases h : selectTable cfg table with
  | some T => exact .inl ⟨T, rfl⟩
  | none => exact .inr ((selectTable_eq_none_iff cfg table).mp h)

/-- ENUMFWD answers OK with a code exactly when the selected table has that code at the position. -/
theorem answers_enumfwd_ok_iff {table : BitVec 3} {nameId : NameId} {code : Operand} {s : State} :
    Answers (.enumfwd table nameId) s (0#4 ++ 1#1 ++ code ++ 0#239) ↔
      ∃ T, selectTable s.cfg table = some T ∧ fwd T nameId = some code.toNat := by
  refine ⟨fun h => ?_, fun ⟨T, hT, hfwd⟩ => by simpa using answers_enumfwd_of_found hT hfwd⟩
  obtain ⟨T, hT⟩ | hreserved := selectTable_cases s.cfg table
  · refine ⟨T, hT, ?_⟩
    cases hfwd : fwd T nameId with
    | some c =>
      have hw := congrArg (BitVec.extractLsb' 239 32) (h.unique (answers_enumfwd_of_found hT hfwd))
      simp only [extract_concat_high, extract_concat_low, le_refl, Nat.sub_self, extract_all, Nat.zero_add] at hw
      obtain ⟨e, he, rfl⟩ := Option.map_eq_some_iff.mp hfwd
      have hcode := entry_code_lt hT (List.mem_of_getElem? he)
      rw [hw, BitVec.toNat_ofNat, Nat.mod_eq_of_lt (by omega)]
    | none =>
      have hw := congrArg statusField (h.unique (answers_enumfwd_of_not_found hT hfwd))
      simp [statusField, extract_concat_high] at hw
  · have hw := congrArg statusField (h.unique (answers_enumfwd_of_reserved nameId s hreserved))
    simp [statusField, extract_concat_high] at hw

/-- ENUMREV answers OK with an identifier exactly when `rev` finds it in the selected table. -/
theorem answers_enumrev_ok_iff {table : BitVec 3} {nameId : NameId} {code : Operand} {s : State} :
    Answers (.enumrev table code) s (0#4 ++ 1#1 ++ nameId ++ 0#255) ↔
      ∃ T, selectTable s.cfg table = some T ∧ rev T code.toNat = some nameId := by
  refine ⟨fun h => ?_, fun ⟨T, hT, hrev⟩ => answers_enumrev_of_found hT hrev⟩
  obtain ⟨T, hT⟩ | hreserved := selectTable_cases s.cfg table
  · refine ⟨T, hT, ?_⟩
    cases hrev : rev T code.toNat with
    | some i =>
      have hw := congrArg (BitVec.extractLsb' 255 16) (h.unique (answers_enumrev_of_found hT hrev))
      simp only [extract_concat_high, extract_concat_low, le_refl, Nat.sub_self, extract_all, Nat.zero_add] at hw
      rw [hw]
    | none =>
      have hw := congrArg statusField (h.unique (answers_enumrev_of_not_found hT hrev))
      simp [statusField, extract_concat_high] at hw
  · have hw := congrArg statusField (h.unique (answers_enumrev_of_reserved code s hreserved))
    simp [statusField, extract_concat_high] at hw

/-- In a legal table `rev` finds an identifier exactly when `fwd` reads the code there (R218, R219). -/
theorem rev_eq_some_iff_fwd {bound : Nat} {T : Table} (h : Table.legal bound T = true) {c : Nat} {i : NameId} :
    rev T c = some i ↔ fwd T i = some c := by
  obtain ⟨hcodes, -, -, hlength⟩ := Table.legal_iff.mp h
  constructor
  · intro hrev
    obtain ⟨e, he, rfl⟩ := entry_of_rev hlength hrev
    simp [fwd, he]
  · intro hfwd
    obtain ⟨e, he, rfl⟩ := Option.map_eq_some_iff.mp hfwd
    simpa using rev_of_entry hcodes he

/-- Settles O48: on a selected table, which is legal, `fwd` and `rev` are inverse. -/
theorem lookupsAreMutuallyInverse : Obligations.LookupsAreMutuallyInverse := by
  intro table nameId code s s' hcfg
  rw [answers_enumfwd_ok_iff, answers_enumrev_ok_iff, hcfg]
  exact exists_congr fun T => and_congr_right fun hT => (rev_eq_some_iff_fwd (selectTable_legal hT)).symm

/-! ### The printed tables -/

/-- Settles O45: the tables and the selector are evaluated. -/
theorem tablesAreAsPrinted : Obligations.TablesAreAsPrinted := by
  intro cfg
  exact ⟨rfl, rfl, rfl, rfl, rfl, rfl, rfl, rfl, by decide, by decide, by decide⟩

/-- The word ENUMREV answers with for the result of a reverse lookup (R216). -/
def enumrevWord : Option NameId → RespWord
  | some i => 0#4 ++ 1#1 ++ i ++ 0#255
  | none => 2#4 ++ 0#1 ++ 0xFFFF#16 ++ 0#255

/-- ENUMREV of a table in range answers with the result of the reverse lookup. -/
theorem answers_enumrev {table : BitVec 3} {s : State} {T : Table} (hT : selectTable s.cfg table = some T)
    (code : Operand) : Answers (.enumrev table code) s (enumrevWord (rev T code.toNat)) := by
  cases hrev : rev T code.toNat with
  | some i => exact answers_enumrev_of_found hT hrev
  | none => exact answers_enumrev_of_not_found hT hrev

/-- Reverse lookup, one entry after the other: the head's code is found at 0, any other code in the rest. -/
theorem findIdx_code_cons (e : Entry) (rest : Table) (c : Nat) :
    List.findIdx? (fun e' => e'.code == c) (e :: rest) =
      if c = e.code then some 0 else (List.findIdx? (fun e' => e'.code == c) rest).map (· + 1) := by
  rw [List.findIdx?_cons]
  simp only [beq_iff_eq, eq_comm (a := c)]

/-- The reverse lookup of source types (R40). -/
theorem rev_sourceTypeTable (c : Nat) :
    rev sourceTypeTable c =
      if c = 0 then some 0#16 else if c = 2 then some 1#16 else if c = 3 then some 2#16 else none := by
  simp only [rev, sourceTypeTable, findIdx_code_cons, List.findIdx?_nil]
  split_ifs <;> rfl

/-- The reverse lookup of trigger types (R43). -/
theorem rev_triggerTypeTable (c : Nat) :
    rev triggerTypeTable c = if c = 0x80 then some 0#16 else if c = 0xC0 then some 1#16 else none := by
  simp only [rev, triggerTypeTable, findIdx_code_cons, List.findIdx?_nil]
  split_ifs <;> rfl

/-- The reverse lookup of dimensions (R45). -/
theorem rev_dimensionTable (c : Nat) :
    rev dimensionTable c = if c = 0 then some 0#16 else if c = 1 then some 1#16 else none := by
  simp only [rev, dimensionTable, findIdx_code_cons, List.findIdx?_nil]
  split_ifs <;> rfl

/-- An operand has the number `n` exactly when it is `n`. -/
theorem operand_toNat_eq_iff (code : Operand) {n : Nat} (h : n < 2 ^ 32) :
    code.toNat = n ↔ code = BitVec.ofNat 32 n := by
  rw [← BitVec.toNat_inj, BitVec.toNat_ofNat, Nat.mod_eq_of_lt h]

/-- Settles O49: each printed table is scanned entry by entry. -/
theorem printedTablesHaveNoDefault : Obligations.PrintedTablesHaveNoDefault := by
  intro code s
  refine ⟨(answers_enumrev (table := 0#3) (T := sourceTypeTable) rfl code).congr ?_,
    (answers_enumrev (table := 1#3) (T := triggerTypeTable) rfl code).congr ?_,
    (answers_enumrev (table := 2#3) (T := dimensionTable) rfl code).congr ?_⟩
  · simp only [rev_sourceTypeTable, operand_toNat_eq_iff code (show 0 < 2 ^ 32 by decide),
      operand_toNat_eq_iff code (show 2 < 2 ^ 32 by decide), operand_toNat_eq_iff code (show 3 < 2 ^ 32 by decide)]
    split_ifs <;> rfl
  · simp only [rev_triggerTypeTable, operand_toNat_eq_iff code (show 0x80 < 2 ^ 32 by decide),
      operand_toNat_eq_iff code (show 0xC0 < 2 ^ 32 by decide)]
    split_ifs <;> rfl
  · simp only [rev_dimensionTable, operand_toNat_eq_iff code (show 0 < 2 ^ 32 by decide),
      operand_toNat_eq_iff code (show 1 < 2 ^ 32 by decide)]
    split_ifs <;> rfl

/-! ### The precomputed inverse map -/

/-- Inserting the entries of a table leaves what was built before at the end: a code of the table is found in the table,
at its last entry, and every other code in what was built before. -/
theorem lookup_inverseMap_of_notMem {T : Table} {c : Nat} (h : ∀ e ∈ T, e.code ≠ c) (pos : Nat)
    (built : List (Nat × NameId)) : (inverseMap T pos built).lookup c = built.lookup c := by
  induction T generalizing pos built with
  | nil => rfl
  | cons e rest ih =>
    have hne : (c == e.code) = false := by simpa using (h e (by simp)).symm
    rw [inverseMap, ih (fun e' he' => h e' (by simp [he'])), List.lookup_cons, hne]

/-- A table whose codes differ maps the code of an entry to the entry's position. -/
theorem lookup_inverseMap_of_entry {T : Table} (hcodes : (T.map Entry.code).Nodup) {i : Nat} {e : Entry}
    (hi : T[i]? = some e) (pos : Nat) (built : List (Nat × NameId)) :
    (inverseMap T pos built).lookup e.code = some (BitVec.ofNat 16 (pos + i)) := by
  induction T generalizing pos built i with
  | nil => simp at hi
  | cons e' rest ih =>
    rw [List.map_cons, List.nodup_cons] at hcodes
    cases i with
    | zero =>
      obtain rfl : e' = e := by simpa using hi
      have hnot : ∀ e'' ∈ rest, e''.code ≠ e'.code := fun e'' hmem heq =>
        hcodes.1 (heq ▸ List.mem_map_of_mem hmem)
      rw [inverseMap, lookup_inverseMap_of_notMem hnot, List.lookup_cons_self, Nat.add_zero]
    | succ j =>
      rw [inverseMap, ih hcodes.2 (by simpa using hi), Nat.add_right_comm, Nat.add_assoc]

/-- Settles O50: both procedures find the one entry of the code, or both find none. -/
theorem scanAndInverseMapAgree : Obligations.ScanAndInverseMapAgree := by
  intro bound T c h
  obtain ⟨hcodes, -, -, -⟩ := Table.legal_iff.mp h
  by_cases hc : ∃ e ∈ T, e.code = c
  · obtain ⟨e, hmem, rfl⟩ := hc
    obtain ⟨i, hi⟩ := List.getElem?_of_mem hmem
    rw [rev_of_entry hcodes hi, revByMap, lookup_inverseMap_of_entry hcodes hi, Nat.zero_add]
  · have hnone : ∀ e ∈ T, e.code ≠ c := fun e he heq => hc ⟨e, he, heq⟩
    rw [rev_eq_none_iff.mpr hnone, revByMap, lookup_inverseMap_of_notMem hnone, List.lookup_nil]

end Sys2Proof.Machine
end

section
/-! What a response can be: the statuses an operation can answer with, and the information under a fault status
(30_encoding.md R104, R114; 60_exceptions.md R232 to R238). -/

namespace Sys2Proof.Machine

open Sys2Proof.Laws

/-- `p` is what a response of status `st` may carry (R114): under OK any result, under a fault that fault's
information. -/
def Payload.Fits : Status → Payload → Prop
  | .ok, _ => True
  | .lengthMismatch, .lengths required stated => (required = 8#8 ∨ required = 16#8) ∧ stated ≠ required
  | .lookupFail, .renumr none => True
  | .lookupFail, .renumf none => True
  | .lookupFail, .rbkt b => b.allFound = false
  | .illegalOp, .illegal op => op.toNat = 0 ∨ 9 ≤ op.toNat
  | _, _ => False

/-- The statuses an operation can answer with (R235, R236, R238). -/
def MayAnswer (i : Instr) (st : Status) : Prop :=
  match i with
  | .encsrc _ | .enctrg _ | .fmtsrc _ | .fmttrg _ => st = .ok
  | .decsrc b | .dectrg b | .hex64 b => st = if b.len = 8#8 then .ok else .lengthMismatch
  | .decbkt b => if b.len = 16#8 then st = .ok ∨ st = .lookupFail else st = .lengthMismatch
  | .enumfwd table _ | .enumrev table _ => if table.toNat ≤ 4 then st = .ok ∨ st = .lookupFail else st = .illegalOp

/-- `run` gives in `s` one reply, of a status that `P` allows and with a payload that fits the status. -/
def RespondsWith (P : Status → Prop) (run : State → Result) (s : State) : Prop :=
  ∃ st p, run s = .next (s.deliver (respWord st p)) ∧ Payload.Fits st p ∧ P st

/-- A response under status OK carries anything. -/
theorem respond_ok_respondsWith {P : Status → Prop} (p : Payload) (s : State) (h : P .ok) :
    RespondsWith P (respond .ok p) s :=
  ⟨.ok, p, rfl, trivial, h⟩

/-- The length check adds LENGTH_MISMATCH on a wrong length, and nothing else. -/
theorem withLength_respondsWith {P : Status → Prop} {required : Byte} {b : BufOperands} {run : State → Result}
    {s : State} (hreq : required = 8#8 ∨ required = 16#8) (heq : b.len = required → RespondsWith P run s)
    (hne : b.len ≠ required → P .lengthMismatch) : RespondsWith P (withLength required b run) s := by
  by_cases h : b.len = required
  · obtain ⟨st, p, hrun, hfits, hst⟩ := heq h
    exact ⟨st, p, by rw [withLength_of_eq run s h, hrun], hfits, hst⟩
  · exact ⟨.lengthMismatch, .lengths required b.len, withLength_of_ne run s h, ⟨hreq, h⟩, hne h⟩

/-- The table selection adds ILLEGAL_OP on a reserved table, and nothing else. -/
theorem withTable_respondsWith {P : Status → Prop} {op : BitVec 4} {table : BitVec 3} {run : Table → State → Result}
    {s : State} (hop : 9 ≤ op.toNat) (hrun : ∀ T, table.toNat ≤ 4 → RespondsWith P (run T) s)
    (hreserved : ¬table.toNat ≤ 4 → P .illegalOp) : RespondsWith P (withTable op table run) s := by
  by_cases h : 5 ≤ table.toNat
  · exact ⟨.illegalOp, .illegal op, withTable_of_reserved op run s h, .inr hop, hreserved (by omega)⟩
  · have hsome : selectTable s.cfg table ≠ none := fun hn => h ((selectTable_eq_none_iff s.cfg table).mp hn)
    obtain ⟨T, hT⟩ := Option.ne_none_iff_exists'.mp hsome
    obtain ⟨st, p, heq, hfits, hst⟩ := hrun T (by omega)
    exact ⟨st, p, by rw [withTable_of_some op run hT, heq], hfits, hst⟩

/-- All an operation can answer, whatever the state. -/
theorem exec_respondsWith (i : Instr) (s : State) : RespondsWith (MayAnswer i) (exec i) s := by
  cases i with
  | encsrc f => exact respond_ok_respondsWith _ s rfl
  | enctrg f => exact respond_ok_respondsWith _ s rfl
  | fmtsrc f => exact respond_ok_respondsWith _ s rfl
  | fmttrg f => exact respond_ok_respondsWith _ s rfl
  | decsrc b =>
    exact withLength_respondsWith (.inl rfl) (fun h => respond_ok_respondsWith _ s (if_pos h).symm)
      fun h => (if_neg h).symm
  | dectrg b =>
    exact withLength_respondsWith (.inl rfl) (fun h => respond_ok_respondsWith _ s (if_pos h).symm)
      fun h => (if_neg h).symm
  | hex64 b =>
    exact withLength_respondsWith (.inl rfl) (fun h => respond_ok_respondsWith _ s (if_pos h).symm)
      fun h => (if_neg h).symm
  | decbkt b =>
    refine withLength_respondsWith (.inr rfl) (fun h => ?_) fun h => by simp [MayAnswer, h]
    cases hfound : (decodeBucket s.cfg (laneBytes b.lanes 16)).allFound with
    | true => exact ⟨.ok, .rbkt _, by simp only [hfound, if_true]; rfl, trivial, by simp [MayAnswer, h]⟩
    | false => exact ⟨.lookupFail, .rbkt _, by simp only [hfound]; rfl, hfound, by simp [MayAnswer, h]⟩
  | enumfwd table nameId =>
    refine withTable_respondsWith (by decide) (fun T h => ?_) fun h => by simp [MayAnswer, h]
    cases hfwd : fwd T nameId with
    | some c => exact ⟨.ok, .renumf (some c), by simp only; rfl, trivial, by simp [MayAnswer, h]⟩
    | none => exact ⟨.lookupFail, .renumf none, by simp only; rfl, trivial, by simp [MayAnswer, h]⟩
  | enumrev table code =>
    refine withTable_respondsWith (by decide) (fun T h => ?_) fun h => by simp [MayAnswer, h]
    cases hrev : rev T code.toNat with
    | some i => exact ⟨.ok, .renumr (some i), by simp only; rfl, trivial, by simp [MayAnswer, h]⟩
    | none => exact ⟨.lookupFail, .renumr none, by simp only; rfl, trivial, by simp [MayAnswer, h]⟩

/-- A word whose code names an operation is answered by it; on a reserved table the operation raises the IllegalOp that
decoding raises (R101, R115). -/
theorem answer_of_code {c : Opcode} {w : ReqWord} (h : opField w = c.code) (s : State) :
    answer w s = exec (instrOf c w) s := by
  by_cases hwf : (instrOf c w).wf = true
  · simp [answer, decode_of_code h, hwf]
  · have htable : 9 ≤ (opField w).toNat ∧ 5 ≤ (qenumTable w).toNat := by rw [instrOf_wf_iff h] at hwf; omega
    have hans : answer w s = raise (.illegalOp c.code) s := by
      simp [answer, decode_of_code h, hwf, DecodeError.op, h]
    rw [hans]
    cases c with
    | enumfwd => exact (answers_enumfwd_of_reserved _ s htable.2).symm
    | enumrev => exact (answers_enumrev_of_reserved _ s htable.2).symm
    | _ => exact absurd (h ▸ htable.1) (by decide)

/-- A word whose code is reserved is answered with IllegalOp (R93). -/
theorem answer_of_reservedOp {w : ReqWord} (h : (opField w).toNat = 0 ∨ 11 ≤ (opField w).toNat) (s : State) :
    answer w s = .next (s.deliver (respWord .illegalOp (.illegal (opField w)))) := by
  simp [answer, decode_of_reservedOp h, DecodeError.op, raise, respond]

/-- A word that every answer to `w` delivers is the word `akc` names. -/
theorem akc_eq_of_answer {cfg : Cfg} {w : ReqWord} {r : RespWord}
    (h : ∀ s : State, s.cfg = cfg → answer w s = .next (s.deliver r)) : akc cfg w = some r := by
  obtain ⟨r', hr', hanswer⟩ := akc_spec cfg w
  have hs := (h (State.fresh cfg w) rfl).symm.trans (hanswer _ rfl)
  rw [hr', State.deliver_inj (Host.Outcome.next.inj hs)]

/-- `akc` depends on its word only as far as `answer` does. -/
theorem akc_congr {w w' : ReqWord} (cfg : Cfg) (h : ∀ s : State, answer w s = answer w' s) :
    akc cfg w = akc cfg w' := by
  obtain ⟨r, hr, hanswer⟩ := akc_spec cfg w'
  rw [hr]
  exact akc_eq_of_answer fun s hs => (h s).trans (hanswer s hs)

/-- The response to a word whose code names an operation. -/
theorem akc_of_code (cfg : Cfg) {c : Opcode} {w : ReqWord} (h : opField w = c.code) :
    ∃ st p, akc cfg w = some (respWord st p) ∧ Payload.Fits st p ∧ MayAnswer (instrOf c w) st := by
  obtain ⟨r, hr, hanswer⟩ := akc_spec cfg w
  obtain ⟨st, p, hexec, hfits, hst⟩ := exec_respondsWith (instrOf c w) (State.fresh cfg w)
  have hs := (hanswer (State.fresh cfg w) rfl).symm.trans ((answer_of_code h _).trans hexec)
  exact ⟨st, p, by rw [hr, State.deliver_inj (Host.Outcome.next.inj hs)], hfits, hst⟩

/-- The response to a word whose code is reserved. -/
theorem akc_of_reservedOp (cfg : Cfg) {w : ReqWord} (h : (opField w).toNat = 0 ∨ 11 ≤ (opField w).toNat) :
    akc cfg w = some (respWord .illegalOp (.illegal (opField w))) :=
  akc_eq_of_answer fun s _ => answer_of_reservedOp h s

/-- The word `akc` names has a payload that fits its status. -/
theorem akc_fits (cfg : Cfg) (w : ReqWord) : ∃ st p, akc cfg w = some (respWord st p) ∧ Payload.Fits st p := by
  obtain hreserved | ⟨c, hc⟩ := reserved_or_exists_code (opField w)
  · exact ⟨_, _, akc_of_reservedOp cfg hreserved, hreserved.imp_right (by omega)⟩
  · obtain ⟨st, p, hakc, hfits, -⟩ := akc_of_code cfg hc
    exact ⟨st, p, hakc, hfits⟩

/-! ### The invariant on replies -/

/-- Each status is 0 to 3, so a response word is legal exactly when its information is. -/
theorem legalReplyWord_respWord (st : Status) (p : Payload) :
    legalReplyWord (respWord st p) = legalFaultInfo st.code p.bits := by
  rw [legalReplyWord, payload_of_respWord, status_of_respWord]
  cases st <;> simp [Status.code]

/-- A bucket with a failed name result is legal information of LOOKUP_FAIL (R114). -/
theorem legalFaultInfo_of_not_allFound {b : Bucket} (h : b.allFound = false) :
    legalFaultInfo 2#4 (Payload.rbkt b).bits = true := by
  simp only [Bucket.allFound, Bool.and_eq_false_iff, Option.isSome_eq_false_iff, Option.isNone_iff_eq_none] at h
  have hnone : nameResultBits none = 0xFFFF#17 := by decide
  simp only [legalFaultInfo, Payload.bits, extract_concat_high, extract_concat_low, Nat.reduceLeDiff, Nat.reduceAdd,
    Nat.reduceSub, le_refl, extract_all]
  obtain (((h | h) | h) | h) | h := h <;> simp [h, hnone]

/-- A payload that fits its status makes a word AKC may answer with (R104, R114). -/
theorem legalReplyWord_of_fits {st : Status} {p : Payload} (h : Payload.Fits st p) :
    legalReplyWord (respWord st p) = true := by
  rw [legalReplyWord_respWord]
  cases st with
  | ok => rfl
  | lengthMismatch =>
    cases p with
    | lengths required stated =>
      obtain ⟨hreq, hne⟩ := h
      have hbits : (Payload.lengths required stated).bits.extractLsb' 264 8 = required ∧
          (Payload.lengths required stated).bits.extractLsb' 256 8 = stated ∧
          (Payload.lengths required stated).bits.extractLsb' 0 256 = 0#256 := by
        simp [Payload.bits, extract_concat_high, extract_concat_low]
      simpa [legalFaultInfo, Status.code, hbits, hne] using hreq
    | _ => exact h.elim
  | lookupFail =>
    cases p with
    | rbkt b => exact legalFaultInfo_of_not_allFound h
    | renumr found =>
      cases found with
      | none => simp [legalFaultInfo, Status.code, Payload.bits, nameResultBits]
      | some i => exact h.elim
    | renumf found =>
      cases found with
      | none => simp [legalFaultInfo, Status.code, Payload.bits, codeResultBits]
      | some c => exact h.elim
    | _ => exact h.elim
  | illegalOp =>
    cases p with
    | illegal op =>
      have hbits : (Payload.illegal op).bits.extractLsb' 268 4 = op ∧
          (Payload.illegal op).bits.extractLsb' 0 268 = 0#268 := by
        simp [Payload.bits, extract_concat_high, extract_concat_low]
      have hop : op = 0#4 ∨ 9 ≤ op.toNat := h.imp_left BitVec.eq_of_toNat_eq
      simpa [legalFaultInfo, Status.code, hbits] using hop
    | _ => exact h.elim

/-- Settles O17: a step gives one reply more, the word `akc` names, whose payload fits its status. -/
theorem stepKeepsRepliesLegal : Obligations.StepKeepsRepliesLegal := by
  intro s t hlegal hstep
  obtain ⟨r, rest, -, hreset, hrequests, -⟩ := exists_request_of_step_eq_next hstep
  obtain ⟨st, p, hakc, hfits⟩ := akc_fits s.cfg r.word
  rw [step_of_akc hakc hreset hrequests, Host.Outcome.next.injEq] at hstep
  subst hstep
  intro reply hmem
  rw [State.deliver_responses, List.mem_append, List.mem_singleton] at hmem
  obtain hold | rfl := hmem
  · exact hlegal reply hold
  · exact legalReplyWord_of_fits hfits

/-- Settles O18: no reply has been given. -/
theorem repliesLegalAtReset : Obligations.RepliesLegalAtReset := by
  intro reply hmem
  exact absurd hmem (List.not_mem_nil (a := reply))

/-! ### The status of every request -/

/-- Settles O52: a reserved code is always IllegalOp; each other code names one operation, whose statuses are known. -/
theorem statusOfEveryRequest : Obligations.StatusOfEveryRequest := by
  intro cfg w
  obtain hreserved | ⟨c, hc⟩ := reserved_or_exists_code (opField w)
  · refine ⟨_, akc_of_reservedOp cfg hreserved, ?_⟩
    rw [status_of_respWord]
    unfold opField at hreserved
    refine ⟨by decide, ?_, ?_, ?_, ?_, fun _ => rfl⟩ <;> intro h <;> omega
  · obtain ⟨st, p, hakc, -, hst⟩ := akc_of_code cfg hc
    refine ⟨_, hakc, ?_⟩
    rw [status_of_respWord, show w.extractLsb' 160 4 = c.code from hc]
    cases c with
    | encsrc | enctrg | fmtsrc | fmttrg =>
      subst hst
      simp [Opcode.code, Status.code]
    | decsrc | dectrg | hex64 =>
      simp only [instrOf, MayAnswer, qbuf] at hst
      subst hst
      split <;> simp_all [Opcode.code, Status.code]
    | decbkt =>
      simp only [instrOf, MayAnswer, qbuf] at hst
      split at hst
      · obtain rfl | rfl := hst <;> simp_all [Opcode.code, Status.code]
      · subst hst
        simp_all [Opcode.code, Status.code]
    | enumfwd | enumrev =>
      simp only [instrOf, MayAnswer, qenumTable] at hst
      split at hst
      · obtain rfl | rfl := hst <;> simp_all [Opcode.code, Status.code] <;> omega
      · subst hst
        simp_all [Opcode.code, Status.code]
        omega

end Sys2Proof.Machine
end

section
/-! Steps, runs and reset: every waiting request gets the word `akc` names, in order, on its own port
(00_scope.md R20, R21; 60_exceptions.md R260 to R263; 70_reset_and_hazards.md R270 to R273). -/

namespace Sys2Proof.Machine

open Sys2Proof.Laws

/-- Settles O7: a step answers the first word, and answering a word that decodes is running the instruction. -/
theorem stepRunsDecodedInstruction : Obligations.StepRunsDecodedInstruction := by
  intro s r rest i hreset hrequests hdecode
  rw [step_of_request hreset hrequests, answer, hdecode]
  rfl

/-- Settles O9: these are the two cases in which a step gives no reply. -/
theorem noStepInResetOrWithoutRequest : Obligations.NoStepInResetOrWithoutRequest := by
  intro s
  obtain ⟨hreset, hfault⟩ | ⟨hreset, hnone, hfault⟩ | ⟨r, rest, w, hreset, hsome, -⟩ := step_cases s
  · exact ⟨fun _ => hfault, by simp [hreset]⟩
  · exact ⟨by simp [hreset], fun _ _ => hfault⟩
  · exact ⟨by simp [hreset], by simp [hsome]⟩

/-- A word whose code is reserved, or that of a lookup with a reserved table, is answered with IllegalOp and its code
(R93, R101, R232). -/
theorem akc_of_reserved (cfg : Cfg) {w : ReqWord}
    (h : (opField w).toNat = 0 ∨ 11 ≤ (opField w).toNat ∨ 9 ≤ (opField w).toNat ∧ 5 ≤ (qenumTable w).toNat) :
    akc cfg w = some (3#4 ++ (opField w ++ 0#268)) := by
  obtain hreserved | ⟨c, hc⟩ := reserved_or_exists_code (opField w)
  · exact akc_of_reservedOp cfg hreserved
  · have hrange := hc ▸ code_range c
    have htable : 5 ≤ (qenumTable w).toNat := by omega
    refine akc_eq_of_answer fun s _ => ?_
    rw [answer_of_code hc, hc]
    cases c with
    | enumfwd => exact answers_enumfwd_of_reserved _ s htable
    | enumrev => exact answers_enumrev_of_reserved _ s htable
    | _ => simp [hc, Opcode.code] at h

/-- Settles O8: a step delivers the word `akc` names. -/
theorem reservedRequestsAnswerIllegalOp : Obligations.ReservedRequestsAnswerIllegalOp := by
  intro s r rest hreset hrequests h
  have hword : 3#4 ++ (opField r.word ++ 0#268) = 3#4 ++ opField r.word ++ 0#268 := by
    simp only [concat_assoc, BitVec.cast_eq]
  rw [step_of_akc (akc_of_reserved s.cfg h) hreset hrequests, hword]
  rfl

/-- Settles O10: `akc` names a word for every request, and a step delivers it. -/
theorem replyIsFunctionOfRequestAndCfg : Obligations.ReplyIsFunctionOfRequestAndCfg := by
  intro s r rest hreset hrequests
  obtain ⟨w, hw⟩ := exists_akc_eq_some s.cfg r.word
  exact ⟨w, hw, step_of_akc hw hreset hrequests⟩

/-! ### Bits and lanes that no response depends on -/

/-- Words equal but for their `n` low bits have the same fields above these. -/
theorem extract_congr_of_ushiftRight {m n : Nat} {w w' : BitVec m} (h : w >>> n = w' >>> n) (o k : Nat) (ho : n ≤ o) :
    w.extractLsb' o k = w'.extractLsb' o k := by
  apply BitVec.eq_of_getLsbD_eq
  intro i hi
  have hbit := congrArg (fun x => BitVec.getLsbD x (o + i - n)) h
  simpa [hi, show n + (o + i - n) = o + i by omega] using hbit

/-- Operation `c` reads its operands above the ignored bits (R94, R95, R97, R100). -/
theorem instrOf_congr {c : Opcode} {w w' : ReqWord} (h : w >>> c.ignoredBits = w' >>> c.ignoredBits) :
    instrOf c w = instrOf c w' := by
  cases c <;> simp only [Opcode.ignoredBits] at h <;>
    simp [instrOf, qsrc, qtrg, qbuf, qenumTable, qenumName, qenumCode, extract_congr_of_ushiftRight h]

/-- Settles O5: the ignored bits are no part of what an operation reads, and of a word with a reserved code only the
code is recorded. -/
theorem ignoredBitsNeverInfluence : Obligations.IgnoredBitsNeverInfluence := by
  have hsome : ∀ cfg w, (akc cfg w).isSome = true := fun cfg w => by
    obtain ⟨r, hr⟩ := exists_akc_eq_some cfg w
    simp [hr]
  refine ⟨fun cfg c w w' hop hshift => ⟨akc_congr cfg fun s => ?_, hsome cfg w⟩,
    fun cfg w w' hop hreserved => ⟨?_, hsome cfg w⟩⟩
  · have hop' : opField w' = c.code := by
      have hle : c.ignoredBits ≤ 160 := by cases c <;> decide
      rw [opField, ← extract_congr_of_ushiftRight hshift 160 4 hle, hop]
    rw [answer_of_code hop, answer_of_code hop', instrOf_congr hshift]
  · have hop' : opField w = opField w' := hop
    rw [akc_of_reservedOp cfg hreserved, akc_of_reservedOp cfg (hop' ▸ hreserved), hop']

/-! ### Runs -/

/-- Serving all waiting requests: each gets the word `akc` names, in order, on its own port (R261, R263). -/
theorem exists_run_eq_next (requests : List Request) (s : State) (hreset : s.resetAsserted = false)
    (hrequests : s.requests = requests) :
    ∃ t, Host.Core.run core requests.length s = .next t ∧ t.cfg = s.cfg ∧ t.resetAsserted = false ∧ t.requests = [] ∧
      (t.responses.map fun r => (r.port, some r.word)) =
        (s.responses.map fun r => (r.port, some r.word)) ++ requests.map fun r => (r.port, akc s.cfg r.word) := by
  induction requests generalizing s with
  | nil => exact ⟨s, rfl, rfl, hreset, hrequests, by simp⟩
  | cons r rest ih =>
    obtain ⟨w, hw⟩ := exists_akc_eq_some s.cfg r.word
    have hstep : core.step s = .next ((s.accept r rest).deliver w) := step_of_akc hw hreset hrequests
    obtain ⟨t, hrun, hcfg, ht, hnone, hreplies⟩ := ih ((s.accept r rest).deliver w) hreset rfl
    refine ⟨t, by simpa [Host.Core.run, hstep] using hrun, hcfg, ht, hnone, ?_⟩
    rw [hreplies]
    simp [hw]

/-- Settles O12: a run of as many steps as requests wait serves them all. -/
theorem runAnswersEveryRequestInOrder : Obligations.RunAnswersEveryRequestInOrder := fun s hreset =>
  exists_run_eq_next s.requests s hreset rfl

/-- The replies of one port after serving all waiting requests: those it had, then `akc` of its own requests in their
order, whatever the other ports asked. -/
theorem exists_run_repliesOn (s : State) (hreset : s.resetAsserted = false) :
    ∃ t, Host.Core.run core s.requests.length s = .next t ∧
      ∀ p, (t.repliesOn p).map some = (s.repliesOn p).map some ++ (s.requestsOn p).map (akc s.cfg) := by
  obtain ⟨t, hrun, -, -, -, hreplies⟩ := exists_run_eq_next s.requests s hreset rfl
  refine ⟨t, hrun, fun p => ?_⟩
  have hport := congrArg (fun l => (l.filter fun x => x.1 == p).map Prod.snd) hreplies
  simpa [State.repliesOn, State.requestsOn, List.filter_map, Function.comp_def] using hport

/-- Settles O13: the replies of a port are a function of its own earlier replies, its own requests and the
configuration. -/
theorem serviceOrderIsInvisible : Obligations.ServiceOrderIsInvisible := by
  intro s s' hreset hreset' hcfg hrequests hreplies
  obtain ⟨t, hrun, ht⟩ := exists_run_repliesOn s hreset
  obtain ⟨t', hrun', ht'⟩ := exists_run_repliesOn s' hreset'
  refine ⟨t, t', hrun, hrun', fun p => ⟨?_, ht p⟩⟩
  refine List.map_injective_iff.mpr (Option.some_injective _) ?_
  rw [ht p, ht' p, hcfg, hrequests p, hreplies p]

/-! ### Reset -/

/-- Settles O15: the deployment's configuration carries the proofs that its tables are legal. -/
theorem resetSetsNothing : Obligations.ResetSetsNothing := by
  refine ⟨rfl, rfl, rfl, fun T hT => ?_⟩
  obtain rfl | rfl := hT
  · exact Table.legal_iff.mp State.reset.cfg.advLegal
  · exact Table.legal_iff.mp State.reset.cfg.pubLegal

/-- Settles O16: in reset a presented request is not accepted, so after release only the new one waits. -/
theorem resetLosesRequestsAndNothingElse : Obligations.ResetLosesRequestsAndNothingElse := by
  intro s r
  have hlost : s.assertReset.present r = s.assertReset := State.present_of_asserted _ r rfl
  have hnew : s.assertReset.releaseReset.present r = { s.assertReset.releaseReset with requests := [r] } :=
    State.present_of_released _ r rfl
  obtain ⟨w, hw⟩ := exists_akc_eq_some s.cfg r.word
  rw [hlost, hnew]
  refine ⟨(noStepInResetOrWithoutRequest s.assertReset).1 rfl, rfl, w, hw, ?_⟩
  exact step_of_akc (s := { s.assertReset.releaseReset with requests := [r] }) hw rfl rfl

/-! ### The configuration as a parameter -/

/-- With `CFG` a parameter, a step leaves the ports with the first request answered by the word `akc` names (R51). -/
theorem stepUnder_of_akc {cfg : Cfg} {p : Ports} {r : Request} {rest : List Request} {w : RespWord}
    (hakc : akc cfg r.word = some w) (hreset : p.resetAsserted = false) (hrequests : p.requests = r :: rest) :
    stepUnder cfg p = .next { p with
      requests := rest
      serving := r.port
      responses := p.responses ++ [⟨r.port, w⟩] } := by
  obtain ⟨w', hw', hanswer⟩ := akc_spec cfg r.word
  obtain rfl : w = w' := Option.some.inj (hakc.symm.trans hw')
  rw [stepUnder_of_request cfg hreset hrequests, hanswer _ rfl]
  rfl

/-- The ports under a configuration determine the ports. -/
theorem Ports.under_inj {cfg : Cfg} {p q : Ports} : p.under cfg = q.under cfg ↔ p = q :=
  ⟨fun h => congrArg State.toPorts h, fun h => h ▸ rfl⟩

/-- Settles O55: `step` is `stepUnder` with the configuration put back, which keeps each outcome apart. -/
theorem stepTakesTheConfigurationAsParameter : Obligations.StepTakesTheConfigurationAsParameter := by
  refine ⟨fun cfg p r rest hreset hrequests => ?_, fun cfg p => ?_, rfl, rfl, rfl⟩
  · obtain ⟨w, hw⟩ := exists_akc_eq_some cfg r.word
    exact ⟨w, hw, stepUnder_of_akc hw hreset hrequests⟩
  · rw [step_under]
    cases stepUnder cfg p <;> simp [underCfg, Ports.under_inj]

end Sys2Proof.Machine
end

section
/-! Records of operands of any value, and the two codecs as inverses (40_source_codec.md R131 to R143;
41_trigger_codec.md R151 to R163). -/

namespace Sys2Proof.Machine

open Sys2Proof.Laws

/-- Zero-extending keeps the value in the low field. -/
theorem extract_zeroExtend_low {n m : Nat} (x : BitVec n) (h : n ≤ m) : (x.setWidth m).extractLsb' 0 n = x := by
  rw [extract_low_eq_setWidth, BitVec.setWidth_setWidth_of_le _ h, BitVec.setWidth_eq]

/-- Zero-extending puts zeros above the value. -/
theorem extract_zeroExtend_high {n m : Nat} (x : BitVec n) (o k : Nat) (h : n ≤ o) :
    (x.setWidth m).extractLsb' o k = 0#k := by
  apply BitVec.eq_of_getLsbD_eq
  intro i hi
  simp [BitVec.getLsbD_of_ge x (o + i) (by omega)]

/-- A value below `2 ^ n` is not changed by cutting it to `n` bits and extending it again. -/
theorem setWidth_setWidth_of_lt {n m : Nat} {x : BitVec m} (h : x.toNat < 2 ^ n) : (x.setWidth n).setWidth m = x := by
  apply BitVec.eq_of_toNat_eq
  rw [BitVec.toNat_setWidth, BitVec.toNat_setWidth, Nat.mod_eq_of_lt h, Nat.mod_eq_of_lt x.isLt]

/-! ### Source records -/

/-- The fields a source record holds for operands of any value: an over-wide `id` runs into `dimension` and `type`, an
over-wide `dimension` into `type`, and the rest is cut (R132, R143). -/
def overlapSrc (f : SrcOperands) : SrcFields where
  type := f.type.extractLsb' 0 2 ||| f.dimension.extractLsb' 6 2 ||| f.id.extractLsb' 30 2
  dimension := f.dimension.extractLsb' 0 6 ||| f.id.extractLsb' 24 6
  id := f.id.extractLsb' 0 24
  advertiser := f.advertiser.extractLsb' 0 16
  publisher := f.publisher.extractLsb' 0 16

/-- The first word of a source record, field by field. -/
theorem sourceWord_eq_overlapSrc (f : SrcOperands) :
    BitVec.ofNat 32 ((((f.type.toNat <<< 6) ||| f.dimension.toNat) <<< 24) ||| f.id.toNat) =
      (overlapSrc f).type ++ (overlapSrc f).dimension ++ (overlapSrc f).id := by
  apply BitVec.eq_of_getLsbD_eq
  intro i hi
  simp only [overlapSrc, BitVec.getLsbD_ofNat, Nat.testBit_or, Nat.testBit_shiftLeft, BitVec.testBit_toNat,
    getLsbD_concat, BitVec.getLsbD_or, BitVec.getLsbD_extractLsb']
  by_cases hid : i < 24
  · simp [hi, hid]
  · by_cases hdim : i < 30
    · simp [hi, hid, show 24 ≤ i by omega, show i - 24 < 6 by omega, show 24 + (i - 24) = i by omega,
        show ¬6 ≤ i - 24 by omega]
    · simp [hi, hid, show 24 ≤ i by omega, show ¬i - 24 < 6 by omega, show 6 ≤ i - 24 by omega,
        show i - 24 - 6 < 2 by omega, show 30 + (i - 24 - 6) = i by omega, show 6 + (i - 24 - 6) = i - 24 by omega]

/-- A source record is the concatenation of the overlapped and cut fields (R132). -/
theorem be64_encodeSrc (f : SrcOperands) : be64 (encodeSrc f) 0 = srcBits (overlapSrc f) := by
  rw [encodeSrc_eq, be64_sourceLayout, sourceWord_eq_overlapSrc]
  rfl

/-- ENCSRC answers OK with the overlapped and cut fields. -/
theorem answers_encsrc_overlap (f : SrcOperands) (s : State) :
    Answers (.encsrc f) s (0#4 ++ srcBits (overlapSrc f) ++ 0#208) :=
  be64_encodeSrc f ▸ answers_encsrc f s

/-- A record of five source fields under status OK, written field by field. -/
theorem rrecWord_srcBits (g : SrcFields) :
    (0#4 ++ srcBits g ++ 0#208 : RespWord) =
      0#4 ++ g.type ++ g.dimension ++ g.id ++ g.advertiser ++ g.publisher ++ 0#208 := by
  simp only [srcBits, concat_assoc, BitVec.cast_eq]

/-- The five source fields of a 64-bit record value (R138). -/
def srcOfBits (V : BitVec 64) : SrcFields :=
  ⟨V.extractLsb' 62 2, V.extractLsb' 56 6, V.extractLsb' 32 24, V.extractLsb' 16 16, V.extractLsb' 0 16⟩

@[simp] theorem srcBits_srcOfBits (V : BitVec 64) : srcBits (srcOfBits V) = V := by
  simp [srcBits, srcOfBits, extract_join]

@[simp] theorem srcOfBits_srcBits (g : SrcFields) : srcOfBits (srcBits g) = g := by
  simp [srcBits, srcOfBits, extract_concat_high, extract_concat_low]

/-- DECSRC of the fields of a record, whatever lanes 8 to 15 hold. -/
theorem answers_decsrc_srcBits (g : SrcFields) (rest : BitVec 64) (s : State) :
    Answers (.decsrc ⟨8#8, srcBits g ++ rest⟩) s
      (0#4 ++ g.type ++ g.dimension ++ g.id ++ g.advertiser ++ g.publisher ++ 0#208) := by
  have h := answers_decsrc (srcBits g ++ rest) s
  rwa [decodeSrc_laneBytes_srcBits, respWord_ok_rsrc] at h

/-- The operands with the numbers of five source fields, zero-extended (R142). -/
def SrcFields.operands (g : SrcFields) : SrcOperands :=
  ⟨g.type.setWidth 32, g.dimension.setWidth 32, g.id.setWidth 32, g.advertiser.setWidth 32, g.publisher.setWidth 32⟩

/-- Zero-extended fields are in range, so encoding them concatenates them again. -/
theorem overlapSrc_operands (g : SrcFields) : overlapSrc g.operands = g := by
  obtain ⟨type, dimension, id, advertiser, publisher⟩ := g
  simp [overlapSrc, SrcFields.operands, extract_zeroExtend_low, extract_zeroExtend_high]

/-- Settles O19: the three stores are laid out one after the other, and the 64 bits are read back as one word. -/
theorem encsrcPacksTheRecord : Obligations.EncsrcPacksTheRecord := by
  refine ⟨fun w h => ?_, fun f s => (answers_encsrc f s).congr ?_⟩
  · rw [decode_of_code (c := .encsrc) h]
    rfl
  · rw [encodeSrc_eq, be64_sourceLayout]
    simp only [concat_assoc, BitVec.cast_eq]

/-- Settles O20: the record is the concatenation of the overlapped and cut fields. -/
theorem encsrcRecordBits : Obligations.EncsrcRecordBits := by
  intro f s
  refine ⟨srcBits (overlapSrc f), answers_encsrc_overlap f s, ?_⟩
  have h := srcOfBits_srcBits (overlapSrc f)
  exact ⟨congrArg SrcFields.type h, congrArg SrcFields.dimension h, congrArg SrcFields.id h,
    congrArg SrcFields.advertiser h, congrArg SrcFields.publisher h⟩

/-- Settles O21: in range the shifted parts do not overlap. -/
theorem encsrcInRangeConcatenates : Obligations.EncsrcInRangeConcatenates := by
  intro f s htype hdim hid hadv hpub
  refine (answers_encsrc f s).congr ?_
  rw [be64_encodeSrc_of_inRange htype hdim hid, rrecWord_srcBits]
  simp only [cutSrc, extract_low_eq_setWidth]

/-- Settles O24: the fields of a record are its bits, and encoding them zero-extended concatenates them again. -/
theorem sourceDecodeThenEncode : Obligations.SourceDecodeThenEncode := by
  intro B rest s s'
  refine ⟨(srcOfBits B).type, (srcOfBits B).dimension, (srcOfBits B).id, (srcOfBits B).advertiser,
    (srcOfBits B).publisher, ?_, ?_⟩
  · have h := answers_decsrc_srcBits (srcOfBits B) rest s
    rwa [srcBits_srcOfBits] at h
  · have h := answers_encsrc_overlap (srcOfBits B).operands s'
    rwa [overlapSrc_operands, srcBits_srcOfBits] at h

/-- Settles O25: decoding returns the fields that the record concatenates. -/
theorem sourceOutOfRangeDecodesOverlapped : Obligations.SourceOutOfRangeDecodesOverlapped := fun f s s' rest =>
  ⟨srcBits (overlapSrc f), answers_encsrc_overlap f s, answers_decsrc_srcBits (overlapSrc f) rest s'⟩

/-! ### Trigger records -/

/-- The fields a trigger record holds for operands of any value: an over-wide `id` runs into `type`, and the rest is cut
(R152, R163). -/
def overlapTrg (f : TrgOperands) : TrgFields where
  type := f.type.extractLsb' 0 8 ||| f.id.extractLsb' 24 8
  id := f.id.extractLsb' 0 24
  size := f.size.extractLsb' 0 8
  category := f.category.extractLsb' 0 8
  option := f.option.extractLsb' 0 16

/-- The first word of a trigger record, field by field. -/
theorem triggerWord_eq_overlapTrg (f : TrgOperands) :
    BitVec.ofNat 32 ((f.type.toNat <<< 24) ||| f.id.toNat) = (overlapTrg f).type ++ (overlapTrg f).id := by
  apply BitVec.eq_of_getLsbD_eq
  intro i hi
  simp only [overlapTrg, BitVec.getLsbD_ofNat, Nat.testBit_or, Nat.testBit_shiftLeft, BitVec.testBit_toNat,
    getLsbD_concat, BitVec.getLsbD_or, BitVec.getLsbD_extractLsb']
  by_cases hid : i < 24
  · simp [hi, hid]
  · simp [hi, hid, show 24 ≤ i by omega, show i - 24 < 8 by omega, show 24 + (i - 24) = i by omega]

/-- A trigger record is the concatenation of the overlapped and cut fields (R152). -/
theorem be64_encodeTrg (f : TrgOperands) : be64 (encodeTrg f) 0 = trgBits (overlapTrg f) := by
  rw [encodeTrg_eq, be64_triggerLayout, triggerWord_eq_overlapTrg]
  rfl

/-- ENCTRG answers OK with the overlapped and cut fields. -/
theorem answers_enctrg_overlap (f : TrgOperands) (s : State) :
    Answers (.enctrg f) s (0#4 ++ trgBits (overlapTrg f) ++ 0#208) :=
  be64_encodeTrg f ▸ answers_enctrg f s

/-- A record of five trigger fields under status OK, written field by field. -/
theorem rrecWord_trgBits (g : TrgFields) :
    (0#4 ++ trgBits g ++ 0#208 : RespWord) = 0#4 ++ g.type ++ g.id ++ g.size ++ g.category ++ g.option ++ 0#208 := by
  simp only [trgBits, concat_assoc, BitVec.cast_eq]

/-- The five trigger fields of a 64-bit record value (R158). -/
def trgOfBits (V : BitVec 64) : TrgFields :=
  ⟨V.extractLsb' 56 8, V.extractLsb' 32 24, V.extractLsb' 24 8, V.extractLsb' 16 8, V.extractLsb' 0 16⟩

@[simp] theorem trgBits_trgOfBits (V : BitVec 64) : trgBits (trgOfBits V) = V := by
  simp [trgBits, trgOfBits, extract_join]

@[simp] theorem trgOfBits_trgBits (g : TrgFields) : trgOfBits (trgBits g) = g := by
  simp [trgBits, trgOfBits, extract_concat_high, extract_concat_low]

/-- DECTRG of the fields of a record, whatever lanes 8 to 15 hold. -/
theorem answers_dectrg_trgBits (g : TrgFields) (rest : BitVec 64) (s : State) :
    Answers (.dectrg ⟨8#8, trgBits g ++ rest⟩) s
      (0#4 ++ g.type ++ g.id ++ g.size ++ g.category ++ g.option ++ 0#208) := by
  have h := answers_dectrg (trgBits g ++ rest) s
  rwa [decodeTrg_laneBytes_trgBits, respWord_ok_rtrg] at h

/-- The operands with the numbers of five trigger fields, zero-extended (R162). -/
def TrgFields.operands (g : TrgFields) : TrgOperands :=
  ⟨g.type.setWidth 32, g.id.setWidth 32, g.size.setWidth 32, g.category.setWidth 32, g.option.setWidth 32⟩

/-- Zero-extended fields are in range, so encoding them concatenates them again. -/
theorem overlapTrg_operands (g : TrgFields) : overlapTrg g.operands = g := by
  obtain ⟨type, id, size, category, option⟩ := g
  simp [overlapTrg, TrgFields.operands, extract_zeroExtend_low, extract_zeroExtend_high]

/-- Settles O26: the four stores are laid out one after the other, and the 64 bits are read back as one word. -/
theorem enctrgPacksTheRecord : Obligations.EnctrgPacksTheRecord := by
  refine ⟨fun w h => ?_, fun f s => (answers_enctrg f s).congr ?_⟩
  · rw [decode_of_code (c := .enctrg) h]
    rfl
  · rw [encodeTrg_eq, be64_triggerLayout]
    simp only [concat_assoc, BitVec.cast_eq]

/-- Settles O27: the record is the concatenation of the overlapped and cut fields. -/
theorem enctrgRecordBits : Obligations.EnctrgRecordBits := by
  intro f s
  refine ⟨trgBits (overlapTrg f), answers_enctrg_overlap f s, ?_⟩
  have h := trgOfBits_trgBits (overlapTrg f)
  exact ⟨congrArg TrgFields.type h, congrArg TrgFields.id h, congrArg TrgFields.size h, congrArg TrgFields.category h,
    congrArg TrgFields.option h⟩

/-- Settles O28: in range the shifted parts do not overlap. -/
theorem enctrgInRangeConcatenates : Obligations.EnctrgInRangeConcatenates := by
  intro f s htype hid hsize hcat hopt
  refine (answers_enctrg f s).congr ?_
  rw [be64_encodeTrg_of_inRange htype hid, rrecWord_trgBits]
  simp only [cutTrg, extract_low_eq_setWidth]

/-- Settles O32: the fields of a record are its bits, encoding them zero-extended concatenates them again, and decoding
returns the fields that a record concatenates. -/
theorem triggerDecodeThenEncodeAndOverlap : Obligations.TriggerDecodeThenEncodeAndOverlap := by
  refine ⟨fun B rest s s' => ⟨(trgOfBits B).type, (trgOfBits B).id, (trgOfBits B).size, (trgOfBits B).category,
    (trgOfBits B).option, ?_, ?_⟩, fun f s s' rest =>
    ⟨trgBits (overlapTrg f), answers_enctrg_overlap f s, answers_dectrg_trgBits (overlapTrg f) rest s'⟩⟩
  · have h := answers_dectrg_trgBits (trgOfBits B) rest s
    rwa [trgBits_trgOfBits] at h
  · have h := answers_enctrg_overlap (trgOfBits B).operands s'
    rwa [overlapTrg_operands, trgBits_trgOfBits] at h

/-! ### Both codecs -/

/-- Settles O33: the fields a decoder returns concatenate to the bits they were cut from. -/
theorem decodersReturnTheirInputBits : Obligations.DecodersReturnTheirInputBits := by
  intro B rest s
  constructor
  · have h := answers_decsrc_srcBits (srcOfBits B) rest s
    rwa [← rrecWord_srcBits, srcBits_srcOfBits] at h
  · have h := answers_dectrg_trgBits (trgOfBits B) rest s
    rwa [← rrecWord_trgBits, trgBits_trgOfBits] at h

/-- What it is for a source record to be in range, field by field (R130). -/
theorem srcInRange_iff {f : SrcOperands} :
    srcInRange f = true ↔ f.type.toNat < 4 ∧ f.dimension.toNat < 64 ∧ f.id.toNat < 2 ^ 24 ∧
      f.advertiser.toNat < 2 ^ 16 ∧ f.publisher.toNat < 2 ^ 16 := by
  simp [srcInRange, and_assoc]

/-- What it is for a trigger record to be in range, field by field (R150). -/
theorem trgInRange_iff {f : TrgOperands} :
    trgInRange f = true ↔ f.type.toNat < 2 ^ 8 ∧ f.id.toNat < 2 ^ 24 ∧ f.size.toNat < 2 ^ 8 ∧
      f.category.toNat < 2 ^ 8 ∧ f.option.toNat < 2 ^ 16 := by
  simp [trgInRange, and_assoc]

/-- In-range source operands are the zero-extended fields of their record. -/
theorem operands_srcOfBits_encodeSrc {f : SrcOperands} (h : srcInRange f = true) :
    (srcOfBits (be64 (encodeSrc f) 0)).operands = f := by
  obtain ⟨htype, hdim, hid, hadv, hpub⟩ := srcInRange_iff.mp h
  rw [be64_encodeSrc_of_inRange htype hdim hid, srcOfBits_srcBits]
  simp only [SrcFields.operands, cutSrc, setWidth_setWidth_of_lt (n := 2) htype, setWidth_setWidth_of_lt (n := 6) hdim,
    setWidth_setWidth_of_lt hid, setWidth_setWidth_of_lt hadv, setWidth_setWidth_of_lt hpub]

/-- In-range trigger operands are the zero-extended fields of their record. -/
theorem operands_trgOfBits_encodeTrg {f : TrgOperands} (h : trgInRange f = true) :
    (trgOfBits (be64 (encodeTrg f) 0)).operands = f := by
  obtain ⟨htype, hid, hsize, hcat, hopt⟩ := trgInRange_iff.mp h
  rw [be64_encodeTrg_of_inRange htype hid, trgOfBits_trgBits]
  simp only [TrgFields.operands, cutTrg, setWidth_setWidth_of_lt htype, setWidth_setWidth_of_lt hid,
    setWidth_setWidth_of_lt hsize, setWidth_setWidth_of_lt hcat, setWidth_setWidth_of_lt hopt]

/-- Two records under status OK in equal words are equal. -/
theorem record_eq_of_rrecWord_eq {V V' : BitVec 64} (h : (0#4 ++ V ++ 0#208 : RespWord) = 0#4 ++ V' ++ 0#208) :
    V = V' :=
  (concat_inj (concat_inj h).1).2

/-- Source operands that overlap into the same fields are answered with one word (R135). -/
theorem answers_encsrc_same {f g : SrcOperands} (h : overlapSrc f = overlapSrc g) (s : State) :
    ∃ w, Answers (.encsrc f) s w ∧ Answers (.encsrc g) s w :=
  ⟨_, answers_encsrc_overlap f s, h ▸ answers_encsrc_overlap g s⟩

/-- Trigger operands that overlap into the same fields are answered with one word (R155). -/
theorem answers_enctrg_same {f g : TrgOperands} (h : overlapTrg f = overlapTrg g) (s : State) :
    ∃ w, Answers (.enctrg f) s w ∧ Answers (.enctrg g) s w :=
  ⟨_, answers_enctrg_overlap f s, h ▸ answers_enctrg_overlap g s⟩

/-- Settles O29: in range the operands are read back from the record; each collision overlaps into the same fields. -/
theorem encodersAreInjectiveInRangeOnly : Obligations.EncodersAreInjectiveInRangeOnly := by
  refine ⟨fun f g s w hf hg hwf hwg => ?_, fun f g s w hf hg hwf hwg => ?_, fun s => ⟨?_, ?_, ?_, ?_⟩⟩
  · have hrecord := record_eq_of_rrecWord_eq
      (((answers_encsrc f s).unique hwf).trans (hwg.unique (answers_encsrc g s)))
    rw [← operands_srcOfBits_encodeSrc hf, hrecord, operands_srcOfBits_encodeSrc hg]
  · have hrecord := record_eq_of_rrecWord_eq
      (((answers_enctrg f s).unique hwf).trans (hwg.unique (answers_enctrg g s)))
    rw [← operands_trgOfBits_encodeTrg hf, hrecord, operands_trgOfBits_encodeTrg hg]
  · exact answers_encsrc_same (by decide) s
  · exact answers_encsrc_same (by decide) s
  · exact answers_enctrg_same (by decide) s
  · exact answers_enctrg_same (by decide) s

end Sys2Proof.Machine
end

section
/-! Buffers and lanes: big-endian reads and stores (00_scope.md R15, R16), the length check, and the lanes no operation
examines (20_memory.md R75, R76; 60_exceptions.md R233). -/

namespace Sys2Proof.Machine

open Sys2Proof.Laws

/-! ### Big-endian reads -/

/-- A 32-bit read shifts each byte to its place. -/
theorem toNat_be32 (B : Buffer) (o : Nat) :
    (be32 B o).toNat = ((byteAt B o).toNat <<< 24) ||| ((byteAt B (o + 1)).toNat <<< 16) |||
      ((byteAt B (o + 2)).toNat <<< 8) ||| (byteAt B (o + 3)).toNat := by
  simp only [be32, BitVec.toNat_append, Nat.shiftLeft_or_distrib, ← Nat.shiftLeft_add]

/-- A 16-bit read gets the bytes of a 16-bit value back. -/
theorem be16_bytesBE (v : BitVec 16) : be16 (bytesBE v 2) 0 = v := by
  simp [be16, byteAt_bytesBE, extract_join]

/-- A 32-bit read gets the bytes of a 32-bit value back. -/
theorem be32_bytesBE (v : BitVec 32) : be32 (bytesBE v 4) 0 = v := by
  simp [be32, byteAt_bytesBE, extract_join]

/-- A 64-bit read gets the bytes of a 64-bit value back. -/
theorem be64_bytesBE (v : BitVec 64) : be64 (bytesBE v 8) 0 = v := by
  simp [be64, be32, byteAt_bytesBE, extract_join]

/-- The bytes of a 16-bit read are the buffer's. -/
theorem bytesBE_be16 {B : Buffer} (h : B.length = 2) : bytesBE (be16 B 0) 2 = B := by
  match B, h with
  | [a, b], _ => simp [bytesBE_two, be16, byteAt, extract_concat_high, extract_concat_low]

/-- The bytes of a 32-bit read are the buffer's. -/
theorem bytesBE_be32 {B : Buffer} (h : B.length = 4) : bytesBE (be32 B 0) 4 = B := by
  match B, h with
  | [a, b, c, d], _ => simp [bytesBE_four, be32, byteAt, extract_concat_high, extract_concat_low]

/-- The bytes of a 64-bit read are the buffer's. -/
theorem bytesBE_be64 {B : Buffer} (h : B.length = 8) : bytesBE (be64 B 0) 8 = B := by
  match B, h with
  | [a, b, c, d, e, f, g, i], _ =>
    simp [bytesBE, List.range_succ, be64, be32, byteAt, extract_concat_high, extract_concat_low]

/-- Settles O53: a read concatenates its bytes, and each byte is cut from its place again. -/
theorem bigEndianBytesAndReadersAreInverse : Obligations.BigEndianBytesAndReadersAreInverse :=
  ⟨fun B o => ⟨BitVec.toNat_append _ _, toNat_be32 B o, BitVec.toNat_append _ _⟩, be16_bytesBE, be32_bytesBE,
    be64_bytesBE, fun _ => bytesBE_be16, fun _ => bytesBE_be32, fun _ => bytesBE_be64⟩

/-! ### Stores -/

/-- A byte of two buffers, one after the other. -/
theorem byteAt_append (B C : Buffer) (o : Nat) :
    byteAt (B ++ C) o = if o < B.length then byteAt B o else byteAt C (o - B.length) := by
  split
  · next h => exact List.getD_append _ _ _ _ h
  · next h => exact List.getD_append_right _ _ _ _ (by omega)

/-- A byte below the cut of a buffer. -/
theorem byteAt_take (B : Buffer) {n o : Nat} (h : o < n) : byteAt (B.take n) o = byteAt B o := by
  simp [byteAt, List.getD_eq_getElem?_getD, h]

/-- A byte of what stands after the cut of a buffer. -/
theorem byteAt_drop (B : Buffer) (n o : Nat) : byteAt (B.drop n) o = byteAt B (n + o) := by
  simp [byteAt, List.getD_eq_getElem?_getD]

/-- Settles O54: a store puts its bytes between what stood before and after them. -/
theorem memWriteSetsOnlyItsBytes : Obligations.MemWriteSetsOnlyItsBytes := by
  intro B off n v h
  have htake : (B.take off).length = off := by rw [List.length_take]; omega
  refine ⟨by simp [memWrite]; omega, fun k hk => ?_, fun o ho => ?_⟩
  · rw [memWrite, byteAt_append, byteAt_append, if_pos (by simp [htake]; omega), if_neg (by omega), htake,
      Nat.add_sub_cancel_left, byteAt_bytesBE v hk]
  · rw [memWrite, byteAt_append, byteAt_append]
    simp only [List.length_append, htake, bytesBE_length]
    obtain hbelow | habove := ho
    · rw [if_pos (by omega), if_pos hbelow, byteAt_take B hbelow]
    · rw [if_neg (by omega), byteAt_drop, show off + n + (o - (off + n)) = o by omega]

/-! ### The length check and the lanes -/

/-- HEX64 of length 8 answers OK with the digits of lanes 0 to 7 (R172). -/
theorem answers_hex64 (lanes : BitVec 128) (s : State) :
    Answers (.hex64 ⟨8#8, lanes⟩) s (respWord .ok (.rhex (hexString (laneBytes lanes 8)))) :=
  withLength_of_eq (b := ⟨8#8, lanes⟩) _ s rfl

/-- A length of 8 is checked before any lane is read (R233). -/
theorem answers_hex64_of_ne {len : Byte} (lanes : BitVec 128) (s : State) (h : len ≠ 8#8) :
    Answers (.hex64 ⟨len, lanes⟩) s (1#4 ++ (8#8 ++ len ++ 0#256)) :=
  withLength_of_ne _ s h

/-- The meaning of DECBKT is `execDecbkt` (R191). -/
theorem exec_decbkt (b : BufOperands) (s : State) : exec (.decbkt b) s = execDecbkt b s := rfl

/-- A length of 16 is checked before any lane is read (R233). -/
theorem answers_decbkt_of_ne {len : Byte} (lanes : BitVec 128) (s : State) (h : len ≠ 16#8) :
    Answers (.decbkt ⟨len, lanes⟩) s (1#4 ++ (16#8 ++ len ++ 0#256)) := by
  rw [Answers, exec_decbkt, execDecbkt, withLength_of_ne _ s h]
  rfl

/-- A LENGTH_MISMATCH word, with and without its parentheses. -/
theorem lengthMismatchWord_assoc (required len : Byte) :
    (1#4 ++ (required ++ len ++ 0#256) : RespWord) = 1#4 ++ required ++ len ++ 0#256 := by
  simp only [concat_assoc, BitVec.cast_eq]

/-- Settles O51: the length check comes first in each of the four operations. -/
theorem wrongLengthIsRejectedUnread : Obligations.WrongLengthIsRejectedUnread := by
  rintro ⟨len, lanes⟩ s
  refine ⟨fun h => ⟨?_, ?_, ?_⟩, fun h => ?_⟩
  · exact (answers_decsrc_of_ne lanes s h).congr (lengthMismatchWord_assoc _ _)
  · exact (answers_dectrg_of_ne lanes s h).congr (lengthMismatchWord_assoc _ _)
  · exact (answers_hex64_of_ne lanes s h).congr (lengthMismatchWord_assoc _ _)
  · exact (answers_decbkt_of_ne lanes s h).congr (lengthMismatchWord_assoc _ _)

/-- The first eight lanes are the bytes of the upper 64 lane bits, and no other. -/
theorem laneBytes_eight (lanes : BitVec 128) : laneBytes lanes 8 = bytesBE (lanes.extractLsb' 64 64) 8 := by
  refine List.map_congr_left fun k hk => ?_
  have hk' : k < 8 := List.mem_range.mp hk
  rw [lane, extract_extract _ _ _ _ _ (by omega), show 64 + 8 * (8 - k - 1) = 120 - 8 * k by omega]

/-- Two instructions with one meaning in a state answer one word there. -/
theorem exists_answers_of_exec_eq {i i' : Instr} {s : State} (h : exec i s = exec i' s) :
    ∃ w, Answers i s w ∧ Answers i' s w := by
  obtain ⟨w, hw⟩ := exec_oneReply i s.cfg
  exact ⟨w, hw s rfl, h.symm.trans (hw s rfl)⟩

/-- Behind the length check, only what runs on the required length can read the lanes. -/
theorem withLength_congr {required len : Byte} {lanes lanes' : BitVec 128} {run run' : State → Result} {s : State}
    (h : len = required → run s = run' s) :
    withLength required ⟨len, lanes⟩ run s = withLength required ⟨len, lanes'⟩ run' s := by
  by_cases hlen : len = required
  · rw [withLength_of_eq run s hlen, withLength_of_eq run' s hlen, h hlen]
  · rw [withLength_of_ne run s hlen, withLength_of_ne run' s hlen]

/-- Settles O6: on the required length the first eight lanes are read, and else none. -/
theorem unexaminedLanesNeverInfluence : Obligations.UnexaminedLanesNeverInfluence := by
  intro len lanes lanes' s
  refine ⟨fun h => ?_, fun hlen => exists_answers_of_exec_eq ?_⟩
  · have hlanes : len = 8#8 → laneBytes lanes 8 = laneBytes lanes' 8 := fun hlen => by
      rw [laneBytes_eight, laneBytes_eight, h hlen]
    refine ⟨exists_answers_of_exec_eq (withLength_congr fun hlen => ?_),
      exists_answers_of_exec_eq (withLength_congr fun hlen => ?_),
      exists_answers_of_exec_eq (withLength_congr fun hlen => ?_)⟩ <;> rw [hlanes hlen]
  · rw [exec_decbkt, exec_decbkt]
    exact withLength_congr fun h => absurd h hlen

end Sys2Proof.Machine
end

section
/-! The hexadecimal formatter and the key pieces (42_keypiece_format.md R170 to R185). -/

namespace Sys2Proof.Machine

open Sys2Proof.Laws

/-! ### Digits -/

/-- The `n` lower-case digits of a value, most significant first: digit `j` is that of bits `4(n-1-j)+3` to
`4(n-1-j)`. -/
def digits {w : Nat} (v : BitVec w) (n : Nat) : Buffer :=
  (List.range n).map fun j => hexdigit (v.extractLsb' (4 * (n - 1 - j)) 4)

@[simp] theorem digits_length {w : Nat} (v : BitVec w) (n : Nat) : (digits v n).length = n := by simp [digits]

/-- Digit `j` of a value. -/
theorem byteAt_digits {w : Nat} (v : BitVec w) {n j : Nat} (h : j < n) :
    byteAt (digits v n) j = hexdigit (v.extractLsb' (4 * (n - 1 - j)) 4) := by
  simp [byteAt, digits, h]

/-- Printing the bytes of a record prints its digits (R172, R173). -/
theorem hexString_bytesBE (V : BitVec 64) : hexString (bytesBE V 8) = digits V 16 := by
  simp [hexString, bytesBE, digits, List.range_succ, extract_extract]

/-- The digits of two halves are the digits of both together. -/
theorem digits_concat (a b : BitVec 64) : digits (a ++ b) 32 = digits a 16 ++ digits b 16 := by
  simp [digits, List.range_succ, extract_concat_high, extract_concat_low]

/-- Sixteen zeros are the digits of 0 (R19). -/
theorem zeroDigits_eq : zeroDigits = digits 0#64 16 := by decide

/-- The digit of a value is the character of that number (R171). -/
theorem hexDigits_getElem : ∀ n : BitVec 4, hexDigits[n.toNat]? = some (hexdigit n) := by decide

/-- A digit stands once among the digit characters. -/
theorem idxOf_hexdigit : ∀ n : BitVec 4, hexDigits.idxOf (hexdigit n) = n.toNat := by decide

/-- A printed digit has the value it was printed from. -/
theorem digitValue_hexdigit : ∀ n : BitVec 4, digitValue (hexdigit n) = n.toNat := by decide

/-- A printed digit is a digit. -/
theorem isHexDigit_hexdigit : ∀ n : BitVec 4, isHexDigit (hexdigit n) = true := by decide

/-- A value is the sum of its nibbles, each shifted to its place (R173, R174). -/
theorem sum_nibbles {w : Nat} (v : BitVec w) (n : Nat) :
    ((List.range n).map fun j => (v.extractLsb' (4 * (n - 1 - j)) 4).toNat <<< (4 * (n - 1 - j))).sum =
      v.toNat % 2 ^ (4 * n) := by
  induction n with
  | zero => simp [Nat.mod_one]
  | succ n ih =>
    have htail : (fun j => (v.extractLsb' (4 * (n + 1 - 1 - j)) 4).toNat <<< (4 * (n + 1 - 1 - j))) ∘ Nat.succ =
        fun j => (v.extractLsb' (4 * (n - 1 - j)) 4).toNat <<< (4 * (n - 1 - j)) := by
      funext j
      simp only [Function.comp_apply, show n + 1 - 1 - j.succ = n - 1 - j by omega]
    rw [List.range_succ_eq_map, List.map_cons, List.map_map, htail, List.sum_cons, ih, Nat.mul_succ, Nat.pow_add,
      Nat.mod_mul, BitVec.extractLsb'_toNat, Nat.shiftRight_eq_div_pow, Nat.shiftLeft_eq]
    simp only [Nat.add_sub_cancel, Nat.sub_zero]
    ring

/-! ### Characters of a response -/

/-- Character `j` of an RHEX payload (R108). -/
theorem charAt_rhex (st : Status) {D : Buffer} (hD : D.length = 16) {j : Nat} (hj : j < 16) :
    charAt (respWord st (.rhex D)) j = byteAt D j := by
  have hchar := packBytes_char D 128 j (by omega) (by omega)
  rw [charAt, respWord, Payload.bits, extract_concat_low _ _ _ _ (by omega), extract_concat_high _ _ _ _ (by omega),
    show 264 - 8 * j - 144 = 8 * (D.length - 1 - j) by omega, hchar]
  rfl

/-- Character `j` of an RKP payload (R109). -/
theorem charAt_rkp (st : Status) {S : Buffer} (hS : S.length = 34) {j : Nat} (hj : j < 34) :
    charAt (respWord st (.rkp S)) j = byteAt S j := by
  have hchar := packBytes_char S 272 j (by omega) (by omega)
  rw [charAt, respWord, Payload.bits, extract_concat_low _ _ _ _ (by omega),
    show 264 - 8 * j = 8 * (S.length - 1 - j) by omega, hchar]
  rfl

/-- The requester reads the string of an RKP payload back (R109). -/
theorem respString_rkp (st : Status) {S : Buffer} (hS : S.length = 34) : respString 34 (respWord st (.rkp S)) = S := by
  refine List.ext_getElem (by simp [respString, hS]) fun j hj hj' => ?_
  have hchar := charAt_rkp st hS (hS ▸ hj')
  rw [byteAt, List.getD_eq_getElem _ _ hj'] at hchar
  simpa [respString, charAt] using hchar

/-! ### HEX64 -/

/-- HEX64 of length 8 answers OK with the digits of the upper 64 lane bits (R172). -/
theorem answers_hex64_digits (lanes : BitVec 128) (s : State) :
    Answers (.hex64 ⟨8#8, lanes⟩) s (respWord .ok (.rhex (digits (lanes.extractLsb' 64 64) 16))) := by
  rw [← hexString_bytesBE, ← laneBytes_eight]
  exact answers_hex64 lanes s

/-- HEX64 of a record, whatever lanes 8 to 15 hold. -/
theorem answers_hex64_concat (V rest : BitVec 64) (s : State) :
    Answers (.hex64 ⟨8#8, V ++ rest⟩) s (respWord .ok (.rhex (digits V 16))) := by
  have h := answers_hex64_digits (V ++ rest) s
  rwa [extract_concat_high _ _ _ _ (by omega), extract_all] at h

/-- Settles O34: the digits are those of the record's nibbles in order, two to a byte. -/
theorem hex64PrintsTwoDigitsPerByte : Obligations.Hex64PrintsTwoDigitsPerByte := by
  refine ⟨fun w h => ?_, fun len lanes s => ⟨?_, fun h => ?_⟩⟩
  · rw [decode_of_code (c := .hex64) h]
    rfl
  · rintro rfl
    refine ⟨_, answers_hex64_digits lanes s, status_of_respWord _ _, ?_, fun k hk => ?_⟩
    · simp [respWord, Payload.bits, extract_concat_low]
    · have hnibble : ∀ j < 16, some (charAt (respWord .ok (.rhex (digits (lanes.extractLsb' 64 64) 16))) j) =
          hexDigits[(lanes.extractLsb' (124 - 4 * j) 4).toNat]? := fun j hj => by
        rw [charAt_rhex _ (digits_length _ _) hj, byteAt_digits _ hj, hexDigits_getElem,
          extract_extract _ _ _ _ _ (by omega), show 64 + 4 * (16 - 1 - j) = 124 - 4 * j by omega]
      have hhigh := hnibble (2 * k) (by omega)
      have hlow := hnibble (2 * k + 1) (by omega)
      rw [show 124 - 4 * (2 * k) = 124 - 8 * k by omega] at hhigh
      rw [show 124 - 4 * (2 * k + 1) = 120 - 8 * k by omega] at hlow
      exact ⟨hhigh, hlow⟩
  · exact (answers_hex64_of_ne lanes s h).congr (lengthMismatchWord_assoc _ _)

/-- The digits of a HEX64 response spell the record (R173). -/
theorem sum_idxOf_digits (V : BitVec 64) :
    ((List.range 16).map fun j =>
      hexDigits.idxOf (charAt (respWord .ok (.rhex (digits V 16))) j) <<< (4 * (15 - j))).sum = V.toNat := by
  have hdigit : ∀ j ∈ List.range 16,
      hexDigits.idxOf (charAt (respWord .ok (.rhex (digits V 16))) j) <<< (4 * (15 - j)) =
        (V.extractLsb' (4 * (16 - 1 - j)) 4).toNat <<< (4 * (16 - 1 - j)) := fun j hj => by
    rw [charAt_rhex _ (digits_length _ _) (List.mem_range.mp hj), byteAt_digits _ (List.mem_range.mp hj),
      idxOf_hexdigit]
  rw [List.map_congr_left hdigit, sum_nibbles, Nat.mod_eq_of_lt V.isLt]

/-- Settles O35: the digits of a response spell its record, so equal responses have equal records. -/
theorem hex64SpellsTheRecord : Obligations.Hex64SpellsTheRecord := by
  refine ⟨fun B rest s => ⟨_, answers_hex64_concat B rest s, sum_idxOf_digits B⟩, fun B B' rest rest' s w h h' => ?_⟩
  have hword := ((answers_hex64_concat B rest s).unique h).trans (h'.unique (answers_hex64_concat B' rest' s))
  apply BitVec.eq_of_toNat_eq
  rw [← sum_idxOf_digits B, hword, sum_idxOf_digits B']

/-! ### Key pieces -/

/-- The key piece of a 128-bit value: `0x` and its 32 digits (R170). -/
def keyPiece (v : BitVec 128) : Buffer := keyPrefix ++ digits v 32

@[simp] theorem keyPiece_length (v : BitVec 128) : (keyPiece v).length = 34 := by simp [keyPiece, keyPrefix]

/-- After `0x`, a key piece holds the digits of its value. -/
theorem byteAt_keyPiece (v : BitVec 128) {j : Nat} (h : j < 32) :
    byteAt (keyPiece v) (2 + j) = hexdigit (v.extractLsb' (4 * (32 - 1 - j)) 4) := by
  have hlength : keyPrefix.length = 2 := rfl
  rw [keyPiece, byteAt_append, hlength, if_neg (by omega), Nat.add_sub_cancel_left, byteAt_digits v h]

/-- A key piece is of the form that has a value (R170). -/
theorem isKeyPiece_keyPiece (v : BitVec 128) : isKeyPiece (keyPiece v) = true := by
  have htake : (keyPiece v).take 2 = keyPrefix := rfl
  have hdrop : (keyPiece v).drop 2 = digits v 32 := rfl
  simp [isKeyPiece, htake, hdrop, digits, isHexDigit_hexdigit]

/-- A key piece spells its value (R174). -/
theorem kpValue_keyPiece (v : BitVec 128) : kpValue (keyPiece v) = some v := by
  have hdigit : ∀ j ∈ List.range 32, digitValue (byteAt (keyPiece v) (2 + j)) <<< (4 * (31 - j)) =
      (v.extractLsb' (4 * (32 - 1 - j)) 4).toNat <<< (4 * (32 - 1 - j)) := fun j hj => by
    rw [byteAt_keyPiece v (List.mem_range.mp hj), digitValue_hexdigit]
  rw [kpValue, if_pos (isKeyPiece_keyPiece v), List.map_congr_left hdigit, sum_nibbles, Nat.mod_eq_of_lt v.isLt]
  simp

/-- The 64-bit value of the record of source operands, as ENCSRC answers it. -/
def srcRecord (f : SrcOperands) : BitVec 64 := be64 (encodeSrc f) 0

/-- The 64-bit value of the record of trigger operands, as ENCTRG answers it. -/
def trgRecord (f : TrgOperands) : BitVec 64 := be64 (encodeTrg f) 0

/-- The digits of a source record are those of its 64-bit value. -/
theorem hexString_encodeSrc (f : SrcOperands) : hexString (encodeSrc f) = digits (srcRecord f) 16 := by
  have hlength : (encodeSrc f).length = 8 := by simp [encodeSrc_eq]
  rw [← hexString_bytesBE, srcRecord, bytesBE_be64 hlength]

/-- The digits of a trigger record are those of its 64-bit value. -/
theorem hexString_encodeTrg (f : TrgOperands) : hexString (encodeTrg f) = digits (trgRecord f) 16 := by
  have hlength : (encodeTrg f).length = 8 := by simp [encodeTrg_eq]
  rw [← hexString_bytesBE, trgRecord, bytesBE_be64 hlength]

/-- FMTSRC answers OK with the key piece of the record above 64 zero bits (R176). -/
theorem answers_fmtsrc (f : SrcOperands) (s : State) :
    Answers (.fmtsrc f) s (respWord .ok (.rkp (keyPiece (srcRecord f ++ 0#64)))) := by
  rw [keyPiece, digits_concat, ← zeroDigits_eq, ← hexString_encodeSrc, ← List.append_assoc]
  rfl

/-- FMTTRG answers OK with the key piece of the record below 64 zero bits (R180). -/
theorem answers_fmttrg (f : TrgOperands) (s : State) :
    Answers (.fmttrg f) s (respWord .ok (.rkp (keyPiece (0#64 ++ trgRecord f)))) := by
  rw [keyPiece, digits_concat, ← zeroDigits_eq, ← hexString_encodeTrg, ← List.append_assoc]
  rfl

/-- The word of a key piece of two halves: `0x` and the digits of each (R109). -/
theorem respWord_rkp_concat (a b : BitVec 64) :
    respWord .ok (.rkp (keyPiece (a ++ b))) =
      0#4 ++ 0x3078#16 ++ packBytes 128 (digits a 16) ++ packBytes 128 (digits b 16) := by
  have hzerox : packBytes 16 keyPrefix = 0x3078#16 := by decide
  have hhigh := packBytes_append keyPrefix (digits a 16) 16 128 (by decide) (by simp)
  have hlow := packBytes_append (keyPrefix ++ digits a 16) (digits b 16) 144 128 (by simp [keyPrefix]) (by simp)
  rw [hhigh, hzerox] at hlow
  have hall : packBytes 272 (keyPiece (a ++ b)) =
      0x3078#16 ++ packBytes 128 (digits a 16) ++ packBytes 128 (digits b 16) := by
    rw [keyPiece, digits_concat, ← List.append_assoc]
    exact hlow
  simp only [respWord, Status.code, Payload.bits, hall, concat_assoc, BitVec.cast_eq]

/-- The word of sixteen digits (R108). -/
theorem respWord_rhex (D : Buffer) : respWord .ok (.rhex D) = 0#4 ++ packBytes 128 D ++ 0#144 := by
  simp only [respWord, Status.code, Payload.bits, concat_assoc, BitVec.cast_eq]

/-- Sixteen zero characters as bits. -/
theorem packBytes_zeroDigits : packBytes 128 (digits 0#64 16) = 0x30303030303030303030303030303030#128 := by decide

/-- Settles O36: the digits of the record are those HEX64 prints, and the lower half is the digits of 0. -/
theorem fmtsrcPrintsRecordInUpperHalf : Obligations.FmtsrcPrintsRecordInUpperHalf := by
  refine ⟨fun w h => ?_, fun f rest s => ⟨srcRecord f, packBytes 128 (digits (srcRecord f) 16), answers_encsrc f s,
    (answers_hex64_concat _ rest s).congr (respWord_rhex _), (answers_fmtsrc f s).congr ?_⟩⟩
  · rw [decode_of_code (c := .fmtsrc) h]
    rfl
  · rw [respWord_rkp_concat, packBytes_zeroDigits]

/-- Settles O37: the digits of the record are those HEX64 prints, and the upper half is the digits of 0. -/
theorem fmttrgPrintsRecordInLowerHalf : Obligations.FmttrgPrintsRecordInLowerHalf := by
  refine ⟨fun w h => ?_, fun f rest s => ⟨trgRecord f, packBytes 128 (digits (trgRecord f) 16), answers_enctrg f s,
    (answers_hex64_concat _ rest s).congr (respWord_rhex _), (answers_fmttrg f s).congr ?_⟩⟩
  · rw [decode_of_code (c := .fmttrg) h]
    rfl
  · rw [respWord_rkp_concat, packBytes_zeroDigits]

/-- The characters of a key piece in its response word: `0`, `x`, and the digit of each four bits (R109, R170). -/
theorem charAt_keyPiece (v : BitVec 128) :
    charAt (respWord .ok (.rkp (keyPiece v))) 0 = 0x30#8 ∧ charAt (respWord .ok (.rkp (keyPiece v))) 1 = 0x78#8 ∧
      ∀ j < 32, some (charAt (respWord .ok (.rkp (keyPiece v))) (2 + j)) =
        hexDigits[(v.extractLsb' (124 - 4 * j) 4).toNat]? := by
  refine ⟨charAt_rkp _ (keyPiece_length v) (by decide), charAt_rkp _ (keyPiece_length v) (by decide), fun j hj => ?_⟩
  rw [charAt_rkp _ (keyPiece_length v) (by omega), byteAt_keyPiece v hj, hexDigits_getElem,
    show 4 * (32 - 1 - j) = 124 - 4 * j by omega]

/-- Settles O38: a formatter answers with the key piece of its record beside 64 zero bits. -/
theorem keyPiecesSpellFixedWidthValues : Obligations.KeyPiecesSpellFixedWidthValues :=
  ⟨fun f s => ⟨srcRecord f, _, answers_encsrc f s, answers_fmtsrc f s, status_of_respWord _ _, charAt_keyPiece _⟩,
    fun g s => ⟨trgRecord g, _, answers_enctrg g s, answers_fmttrg g s, status_of_respWord _ _, charAt_keyPiece _⟩⟩

/-! ### The two halves together -/

/-- The value a requester reads from the word of a key piece. -/
theorem kpValue_respString (v : BitVec 128) : kpValue (respString 34 (respWord .ok (.rkp (keyPiece v)))) = some v := by
  rw [respString_rkp _ (keyPiece_length v), kpValue_keyPiece]

/-- A value above zeros and one below zeros join by OR. -/
theorem concat_zero_or_zero_concat (a b : BitVec 64) : ((a ++ 0#64) ||| (0#64 ++ b) : BitVec 128) = a ++ b := by
  rw [BitVec.or_append, BitVec.or_zero, BitVec.zero_or]

/-- Settles O39: the halves share no bit, so OR, sum and XOR are the same. -/
theorem keyPieceHalvesAreIsolated : Obligations.KeyPieceHalvesAreIsolated := by
  intro f g s
  refine ⟨srcRecord f, trgRecord g, _, _, _, _, answers_encsrc f s, answers_enctrg g s, answers_fmtsrc f s,
    answers_fmttrg g s, kpValue_respString _, kpValue_respString _, concat_zero_or_zero_concat _ _, ?_, ?_⟩
  · have hdisjoint : ((srcRecord f ++ 0#64) &&& (0#64 ++ trgRecord g) : BitVec 128) = 0#128 := by
      rw [BitVec.and_append, BitVec.and_zero, BitVec.zero_and]
      rfl
    rw [BitVec.add_eq_or_of_and_eq_zero _ _ hdisjoint, concat_zero_or_zero_concat]
  · rw [BitVec.xor_append, BitVec.xor_zero, BitVec.zero_xor]

/-- The bytes of two halves are the bytes of both together (R62). -/
theorem bytesBE_concat (a b : BitVec 64) : bytesBE (a ++ b) 16 = bytesBE a 8 ++ bytesBE b 8 := by
  simp [bytesBE, List.range_succ, extract_concat_high, extract_concat_low]

/-- The bytes of 0. -/
theorem bytesBE_zero : bytesBE 0#64 8 = List.replicate 8 0#8 := by decide

/-- The bytes a requester reads from the word of a key piece. -/
theorem kpBytes_respString (v : BitVec 128) :
    kpBytes (respString 34 (respWord .ok (.rkp (keyPiece v)))) = some (bytesBE v 16) := by
  rw [kpBytes, kpValue_respString, Option.map_some]

/-- Settles O40: the bytes of a value are those of its two halves. -/
theorem combinedKeyIsABucket : Obligations.CombinedKeyIsABucket := by
  intro f g s
  refine ⟨srcRecord f, trgRecord g, _, _, _, _, answers_encsrc f s, answers_enctrg g s, answers_fmtsrc f s,
    answers_fmttrg g s, kpValue_respString _, kpValue_respString _, ?_, ?_, ?_⟩
  · rw [kpBytes_respString, bytesBE_concat, bytesBE_zero]
  · rw [kpBytes_respString, bytesBE_concat, bytesBE_zero]
  · rw [concat_zero_or_zero_concat, bytesBE_concat]

end Sys2Proof.Machine
end

section
/-! The bucket decoder: two records, five lookups, and the key that two key pieces make (43_bucket_decode.md R191 to
R198). -/

namespace Sys2Proof.Machine

open Sys2Proof.Laws

/-- The bucket of ten fields: the fields with the five reverse lookups of the enumerated ones (R192, R193). -/
def bucketOf (cfg : Cfg) (f : SrcFields) (g : TrgFields) : Bucket where
  src := f
  trg := g
  sourceType := rev sourceTypeTable f.type.toNat
  dimension := rev dimensionTable f.dimension.toNat
  advertiser := rev cfg.adv f.advertiser.toNat
  publisher := rev cfg.pub f.publisher.toNat
  triggerType := rev triggerTypeTable g.type.toNat

/-- DECBKT splits its 16 bytes at offset 8 (R191). -/
theorem decodeBucket_laneBytes (cfg : Cfg) (S T : BitVec 64) :
    decodeBucket cfg (laneBytes (S ++ T) 16) = bucketOf cfg (srcOfBits S) (trgOfBits T) := by
  have hsrc : decodeSrc (laneBytes (S ++ T) 16) 0 = srcOfBits S := by
    simp [decodeSrc, srcOfBits, be32_laneBytes, be16_laneBytes, extract_extract, extract_concat_high]
  have htrg : decodeTrg (laneBytes (S ++ T) 16) 8 = trgOfBits T := by
    simp [decodeTrg, trgOfBits, be32_laneBytes, be16_laneBytes, byteAt_laneBytes, lane, extract_extract,
      extract_concat_low]
  simp only [decodeBucket, hsrc, htrg, bucketOf]

/-- The status of a decoded bucket (R195). -/
def Bucket.status (b : Bucket) : Status := if b.allFound then .ok else .lookupFail

/-- DECBKT of length 16 answers with the bucket, under the status of its lookups (R191, R195). -/
theorem answers_decbkt (S T : BitVec 64) (s : State) :
    Answers (.decbkt ⟨16#8, S ++ T⟩) s
      (respWord (bucketOf s.cfg (srcOfBits S) (trgOfBits T)).status
        (.rbkt (bucketOf s.cfg (srcOfBits S) (trgOfBits T)))) := by
  rw [Answers, exec_decbkt, execDecbkt, withLength_of_eq (required := 16#8) (b := ⟨16#8, S ++ T⟩) _ s rfl]
  simp only [decodeBucket_laneBytes, Bucket.status]
  split <;> rfl

/-- The word of a bucket, part by part (R110). -/
theorem respWord_rbkt (st : Status) (b : Bucket) :
    respWord st (.rbkt b) =
      st.code ++ srcBits b.src ++ trgBits b.trg ++ nameResultBits b.sourceType ++ nameResultBits b.dimension ++
        nameResultBits b.advertiser ++ nameResultBits b.publisher ++ nameResultBits b.triggerType ++ 0#59 := by
  simp only [respWord, Payload.bits, concat_assoc, BitVec.cast_eq]

/-! ### Name results -/

/-- The valid bit of a name result says whether the lookup found an entry (R111). -/
theorem msb_nameResultBits (found : Option NameId) : (nameResultBits found).msb = found.isSome := by
  cases found with
  | none => decide
  | some i =>
    rw [nameResultBits, BitVec.msb_eq_getLsbD_last, getLsbD_concat]
    rfl

/-- A reverse lookup in a legal table gives the name result of its code. -/
theorem isNameResult_rev {bound : Nat} {T : Table} (h : Table.legal bound T = true) (c : Nat) :
    IsNameResult T c (nameResultBits (rev T c)) := by
  obtain ⟨-, -, -, hlength⟩ := Table.legal_iff.mp h
  cases hrev : rev T c with
  | some i =>
    obtain ⟨e, he, hcode⟩ := entry_of_rev hlength hrev
    obtain ⟨hlt, -⟩ := List.getElem?_eq_some_iff.mp he
    exact .inl ⟨i.toNat, e, he, hcode, by omega, by simp [nameResultBits]⟩
  | none => exact .inr ⟨rev_eq_none_iff.mp hrev, rfl⟩

/-- Settles O41: the word is the bucket's, its name results are reverse lookups, and their valid bits are the status. -/
theorem decbktSplitsAndLooksUpNames : Obligations.DecbktSplitsAndLooksUpNames := by
  refine ⟨fun w h => ?_, fun len S T s => ⟨?_, fun h => ?_⟩⟩
  · rw [decode_of_code (c := .decbkt) h]
    rfl
  · rintro rfl
    have hword := answers_decbkt S T s
    rw [respWord_rbkt] at hword
    simp only [bucketOf, srcBits_srcOfBits, trgBits_trgOfBits] at hword
    refine ⟨_, _, _, _, _, _, hword, isNameResult_rev (bound := 4) (by decide) _,
      isNameResult_rev (bound := 64) (by decide) _, isNameResult_rev s.cfg.advLegal _,
      isNameResult_rev s.cfg.pubLegal _, isNameResult_rev (bound := 256) (by decide) _, ?_, ?_⟩ <;>
    · simp only [msb_nameResultBits]
      intro hfound
      simp only [Bucket.status, Bucket.allFound, hfound]
      rfl
  · exact (answers_decbkt_of_ne _ s h).congr (lengthMismatchWord_assoc _ _)

/-! ### Two decoders and five lookups -/

/-- The status of one lookup (R216). -/
def lookupStatus (found : Option NameId) : Status := if found.isSome then .ok else .lookupFail

/-- The word of a reverse lookup: its status and its name result (R112). -/
theorem enumrevWord_eq (found : Option NameId) :
    enumrevWord found = (lookupStatus found).code ++ nameResultBits found ++ 0#255 := by
  cases found <;> simp [enumrevWord, lookupStatus, Status.code, nameResultBits, concat_assoc]

/-- A lookup answers OK exactly when it finds an entry. -/
theorem lookupStatus_code_eq_zero_iff (found : Option NameId) :
    (lookupStatus found).code = 0#4 ↔ found.isSome = true := by
  cases found <;> simp [lookupStatus, Status.code]

/-- A bucket has status OK exactly when all five lookups found an entry (R195). -/
theorem bucketStatus_code_eq_zero_iff (b : Bucket) : b.status.code = 0#4 ↔ b.allFound = true := by
  cases h : b.allFound <;> simp [Bucket.status, h, Status.code]

/-- Otherwise it has status LOOKUP_FAIL (R195). -/
theorem bucketStatus_code_of_ne_zero {b : Bucket} (h : b.status.code ≠ 0#4) : b.status.code = 2#4 := by
  rw [Ne, bucketStatus_code_eq_zero_iff] at h
  simp [Bucket.status, h, Status.code]

/-- ENUMREV of a decoded field, zero-extended to an operand. -/
theorem answers_enumrev_setWidth {n : Nat} {table : BitVec 3} {s : State} {T : Table}
    (hT : selectTable s.cfg table = some T) (x : BitVec n) (hn : n ≤ 32) :
    Answers (.enumrev table (x.setWidth 32)) s
      ((lookupStatus (rev T x.toNat)).code ++ nameResultBits (rev T x.toNat) ++ 0#255) := by
  have h := answers_enumrev hT (x.setWidth 32)
  rwa [BitVec.toNat_setWidth_of_le hn, enumrevWord_eq] at h

/-- Settles O42: the decoders return the bits of the halves, and the bucket holds the results of the five lookups. -/
theorem decbktIsTwoDecodersAndFiveLookups : Obligations.DecbktIsTwoDecodersAndFiveLookups := by
  intro S T rest rest' s
  have hword := answers_decbkt S T s
  rw [respWord_rbkt] at hword
  simp only [bucketOf, srcBits_srcOfBits, trgBits_trgOfBits] at hword
  refine ⟨S, T, _, _, _, _, _, _, _, _, _, _, _, (decodersReturnTheirInputBits S rest s).1,
    (decodersReturnTheirInputBits T rest' s).2,
    answers_enumrev_setWidth (T := sourceTypeTable) rfl _ (by decide),
    answers_enumrev_setWidth (T := dimensionTable) rfl _ (by decide),
    answers_enumrev_setWidth (T := s.cfg.adv) rfl _ (by decide),
    answers_enumrev_setWidth (T := s.cfg.pub) rfl _ (by decide),
    answers_enumrev_setWidth (T := triggerTypeTable) rfl _ (by decide), hword, ?_, bucketStatus_code_of_ne_zero⟩
  simp only [lookupStatus_code_eq_zero_iff, bucketStatus_code_eq_zero_iff, Bucket.allFound, Bool.and_eq_true, and_assoc]
  rfl

/-! ### The host's reading of a bucket -/

/-- A name result as R111 reads it: valid with its identifier, or none. -/
def readName (n : BitVec 17) : Option NameId := if n.extractLsb' 16 1 = 1#1 then some (n.extractLsb' 0 16) else none

@[simp] theorem readName_nameResultBits (found : Option NameId) : readName (nameResultBits found) = found := by
  cases found <;> simp [readName, nameResultBits, extract_concat_high, extract_concat_low]

/-- The `n`-th name result stands in the 17 bits below `Q[144 - 17n]` (R110). -/
theorem respName_eq_readName (w : RespWord) {n : Nat} (h : n < 5) :
    respName n w = readName (w.extractLsb' (127 - 17 * n) 17) := by
  rw [respName, readName, extract_extract _ _ _ _ _ (by omega), extract_extract _ _ _ _ _ (by omega),
    show 127 - 17 * n + 16 = 143 - 17 * n by omega, Nat.add_zero]

/-- The five name results of a bucket are read back from its word (R110, R111). -/
theorem respName_rbkt (st : Status) (b : Bucket) :
    respName 0 (respWord st (.rbkt b)) = b.sourceType ∧ respName 1 (respWord st (.rbkt b)) = b.dimension ∧
      respName 2 (respWord st (.rbkt b)) = b.advertiser ∧ respName 3 (respWord st (.rbkt b)) = b.publisher ∧
      respName 4 (respWord st (.rbkt b)) = b.triggerType := by
  simp [respName_eq_readName, respWord_rbkt, extract_concat_high, extract_concat_low]

/-- The fields of a bucket are read back from its word (R110). -/
theorem respFields_rbkt (st : Status) (b : Bucket) :
    respSrc (respWord st (.rbkt b)) = b.src ∧ respBucketTrg (respWord st (.rbkt b)) = b.trg := by
  have hsrc : (respWord st (.rbkt b)).extractLsb' 208 64 = srcBits b.src := by
    simp [respWord_rbkt, extract_concat_high, extract_concat_low]
  have htrg : (respWord st (.rbkt b)).extractLsb' 144 64 = trgBits b.trg := by
    simp [respWord_rbkt, extract_concat_high, extract_concat_low]
  have hsrc' := congrArg srcOfBits hsrc
  have htrg' := congrArg trgOfBits htrg
  rw [srcOfBits_srcBits] at hsrc'
  rw [trgOfBits_trgBits] at htrg'
  exact ⟨hsrc' ▸ by simp [respSrc, srcOfBits, extract_extract], htrg' ▸ by
    simp [respBucketTrg, trgOfBits, extract_extract]⟩

/-- The name of a lookup's result is that of the first entry of the code, where there is one (R194, R196). -/
theorem nameOf_rev {bound : Nat} {T : Table} (h : Table.legal bound T = true) (c : Nat) :
    nameOf T (rev T c) = (T.find? fun e => e.code == c).map Entry.name := by
  obtain ⟨-, -, -, hlength⟩ := Table.legal_iff.mp h
  rw [List.find?_eq_bind_findIdx?_getElem?, nameOf, rev]
  cases hfind : T.findIdx? fun e => e.code == c with
  | none => rfl
  | some j =>
    obtain ⟨hlt, -⟩ := List.findIdx?_eq_some_iff_getElem.mp hfind
    simp [Nat.mod_eq_of_lt (show j < 65536 by omega)]

/-- Settles O43: the host reads back the results of the five lookups, and each names the entry it found. -/
theorem decodedBucketNamesEveryEnumeratedField : Obligations.DecodedBucketNamesEveryEnumeratedField := by
  intro S T s
  refine ⟨_, answers_decbkt S T s, ?_⟩
  generalize (bucketOf s.cfg (srcOfBits S) (trgOfBits T)).status = st
  obtain ⟨h0, h1, h2, h3, h4⟩ := respName_rbkt st (bucketOf s.cfg (srcOfBits S) (trgOfBits T))
  obtain ⟨hsrc, htrg⟩ := respFields_rbkt st (bucketOf s.cfg (srcOfBits S) (trgOfBits T))
  rw [decodedBucket, h0, h1, h2, h3, h4, hsrc, htrg]
  simp only [bucketOf, nameOf_rev s.cfg.advLegal, nameOf_rev s.cfg.pubLegal,
    nameOf_rev (bound := 4) (T := sourceTypeTable) (by decide),
    nameOf_rev (bound := 64) (T := dimensionTable) (by decide),
    nameOf_rev (bound := 256) (T := triggerTypeTable) (by decide)]
  rfl

/-! ### Emitted keys -/

/-- A code that ENUMFWD answered is found again, at the identifier it was asked for (R198, R219). -/
theorem rev_of_answers_enumfwd {table : BitVec 3} {nameId : NameId} {code : Operand} {s : State} {T : Table}
    (hT : selectTable s.cfg table = some T) (h : Answers (.enumfwd table nameId) s (0#4 ++ 1#1 ++ code ++ 0#239)) :
    rev T code.toNat = some nameId := by
  obtain ⟨T', hT', hfwd⟩ := answers_enumfwd_ok_iff.mp h
  obtain rfl : T = T' := Option.some.inj (hT.symm.trans hT')
  exact (rev_eq_some_iff_fwd (selectTable_legal hT)).mpr hfwd

/-- The part of a bucket's payload below its ten fields: the five name results (R110). -/
def Bucket.nameBits (b : Bucket) : BitVec 144 :=
  nameResultBits b.sourceType ++ nameResultBits b.dimension ++ nameResultBits b.advertiser ++
    nameResultBits b.publisher ++ nameResultBits b.triggerType ++ 0#59

/-- The word of a bucket, field by field above its name results. -/
theorem respWord_rbkt_fields (st : Status) (b : Bucket) :
    respWord st (.rbkt b) =
      st.code ++ b.src.type ++ b.src.dimension ++ b.src.id ++ b.src.advertiser ++ b.src.publisher ++
        b.trg.type ++ b.trg.id ++ b.trg.size ++ b.trg.category ++ b.trg.option ++ b.nameBits := by
  simp only [respWord, Payload.bits, Bucket.nameBits, srcBits, trgBits, concat_assoc, BitVec.cast_eq]

/-- The bucket of an emitted key: the cut operands, with the lookups of their enumerated fields. -/
def emittedBucket (cfg : Cfg) (f : SrcOperands) (g : TrgOperands) : Bucket := bucketOf cfg (cutSrc f) (cutTrg g)

/-- DECBKT of two in-range key pieces joined by OR answers with the bucket of their operands (R185). -/
theorem answers_decbkt_emitted {f : SrcOperands} {g : TrgOperands} (hf : srcInRange f = true)
    (hg : trgInRange g = true) (s : State) :
    Answers (.decbkt ⟨16#8, (srcRecord f ++ 0#64) ||| (0#64 ++ trgRecord g)⟩) s
      (respWord (emittedBucket s.cfg f g).status (.rbkt (emittedBucket s.cfg f g))) := by
  obtain ⟨htype, hdim, hid, -, -⟩ := srcInRange_iff.mp hf
  obtain ⟨htype', hid', -, -, -⟩ := trgInRange_iff.mp hg
  have hbucket := answers_decbkt (srcRecord f) (trgRecord g) s
  have hsrc : srcOfBits (srcRecord f) = cutSrc f := by
    rw [srcRecord, be64_encodeSrc_of_inRange htype hdim hid, srcOfBits_srcBits]
  have htrg : trgOfBits (trgRecord g) = cutTrg g := by
    rw [trgRecord, be64_encodeTrg_of_inRange htype' hid', trgOfBits_trgBits]
  rw [hsrc, htrg] at hbucket
  rwa [concat_zero_or_zero_concat]

/-- Where ENUMFWD answered each enumerated operand, the lookups of an emitted bucket find the five identifiers
(R198). -/
theorem emittedBucket_of_answers_enumfwd {f : SrcOperands} {g : TrgOperands} {s : State} (hf : srcInRange f = true)
    (hg : trgInRange g = true) {i0 i1 i2 i3 i4 : NameId}
    (h0 : Answers (.enumfwd 0#3 i0) s (0#4 ++ 1#1 ++ f.type ++ 0#239))
    (h1 : Answers (.enumfwd 2#3 i1) s (0#4 ++ 1#1 ++ f.dimension ++ 0#239))
    (h2 : Answers (.enumfwd 3#3 i2) s (0#4 ++ 1#1 ++ f.advertiser ++ 0#239))
    (h3 : Answers (.enumfwd 4#3 i3) s (0#4 ++ 1#1 ++ f.publisher ++ 0#239))
    (h4 : Answers (.enumfwd 1#3 i4) s (0#4 ++ 1#1 ++ g.type ++ 0#239)) :
    emittedBucket s.cfg f g = ⟨cutSrc f, cutTrg g, some i0, some i1, some i2, some i3, some i4⟩ := by
  obtain ⟨htype, hdim, -, hadv, hpub⟩ := srcInRange_iff.mp hf
  obtain ⟨htype', -, -, -, -⟩ := trgInRange_iff.mp hg
  simp only [emittedBucket, bucketOf, cutSrc, cutTrg, BitVec.toNat_setWidth,
    Nat.mod_eq_of_lt (show f.type.toNat < 2 ^ 2 from htype),
    Nat.mod_eq_of_lt (show f.dimension.toNat < 2 ^ 6 from hdim),
    Nat.mod_eq_of_lt hadv, Nat.mod_eq_of_lt hpub, Nat.mod_eq_of_lt htype',
    rev_of_answers_enumfwd (T := sourceTypeTable) rfl h0, rev_of_answers_enumfwd (T := dimensionTable) rfl h1,
    rev_of_answers_enumfwd (T := s.cfg.adv) rfl h2, rev_of_answers_enumfwd (T := s.cfg.pub) rfl h3,
    rev_of_answers_enumfwd (T := triggerTypeTable) rfl h4]

/-- Settles O44: the joined key is the two records, which DECBKT splits again, and each reverse lookup finds the
identifier its code came from. -/
theorem emittedKeyDecodesToItsRecords : Obligations.EmittedKeyDecodesToItsRecords := by
  intro f g s s' hf hg hcfg
  refine ⟨_, _, _, _, (emittedBucket s.cfg f g).nameBits, (emittedBucket s.cfg f g).status.code, answers_fmtsrc f s,
    answers_fmttrg g s, kpValue_respString _, kpValue_respString _, ?_, ?_⟩
  · refine (answers_decbkt_emitted hf hg s').congr ?_
    rw [hcfg, respWord_rbkt_fields]
    simp only [extract_low_eq_setWidth]
    rfl
  · intro i0 i1 i2 i3 i4 h0 h1 h2 h3 h4
    rw [emittedBucket_of_answers_enumfwd hf hg h0 h1 h2 h3 h4]
    exact ⟨rfl, rfl⟩

end Sys2Proof.Machine
end
